-- ==== Sys2Proof/Word.lean ====
section
/-! DEFINITION. The fixed widths of JOF32 (spec/00_scope.md R6) as bit-vector types: what the spec adds, masks or
extracts bits of is a bit vector, and nothing else is. -/

namespace Sys2Proof

/-- `XLEN` = 32: a register, an instruction word, an address while it is computed (R6, R20, R51). -/
abbrev Word := BitVec 32

/-- `BYTE_BITS` = 8: one cell of data memory (R6, R50). -/
abbrev Byte := BitVec 8

/-- `REG_FIELD_BITS` = 4: a register field, the unsigned number of a register (R20, R87). -/
abbrev RegIdx := BitVec 4

/-- `OPCODE_BITS` = 5: instruction bits 31 to 27 (R80). -/
abbrev Opcode := BitVec 5

/-- `SHAMT_BITS` = 5: instruction bits 14 to 10 of format R (R81, R92). -/
abbrev Shamt := BitVec 5

/-- The 10-bit FUNCTION field of format R, bits 9 to 0 (R81). -/
abbrev Funct := BitVec 10

/-- `IMM_BITS` = 19: the OFFSET / INMEDIATO field of format I, bits 18 to 0 (R82). -/
abbrev Imm19 := BitVec 19

/-- The 27-bit address field of format J, bits 26 to 0 (R83), and the undescribed low bits of NOP (R84). -/
abbrev Addr27 := BitVec 27

/-- `PC_BITS` = 10: an instruction address, counted in whole instructions (R28). -/
abbrev PcAddr := BitVec 10

end Sys2Proof
end

