-- ==== Sys2Proof/Syntax.lean ====
section
/-! DEFINITION. The instructions of JOF32: one constructor for each of the 17 rows of spec/opcode_table.json. A
constructor carries EVERY field of its format (spec/30_encoding.md R81 to R84) from the high bits to the low ones, the
fields the instruction does not use among them: an instruction is then a word with its operation code named, decoding
drops no bit, and what R93 calls the canonical encoding is a property of the instruction (WellFormed.lean). -/

namespace Sys2Proof

inductive Instr where
  /-- ADD, R110. Format R; SHAMT and FUNCTION unused. -/
  | add (rs rt rd : RegIdx) (shamt : Shamt) (funct : Funct)
  /-- SUB, R111. Format R; SHAMT and FUNCTION unused. -/
  | sub (rs rt rd : RegIdx) (shamt : Shamt) (funct : Funct)
  /-- AND, R112. Format R; SHAMT and FUNCTION unused. -/
  | and (rs rt rd : RegIdx) (shamt : Shamt) (funct : Funct)
  /-- OR, R113. Format R; SHAMT and FUNCTION unused. -/
  | or (rs rt rd : RegIdx) (shamt : Shamt) (funct : Funct)
  /-- NOR, R114. Format R; SHAMT and FUNCTION unused. -/
  | nor (rs rt rd : RegIdx) (shamt : Shamt) (funct : Funct)
  /-- SLL, R120. Format R; RS and FUNCTION unused. -/
  | sll (rs rt rd : RegIdx) (shamt : Shamt) (funct : Funct)
  /-- SRL, R121. Format R; RS and FUNCTION unused. -/
  | srl (rs rt rd : RegIdx) (shamt : Shamt) (funct : Funct)
  /-- MULT, R130. Format R; SHAMT and FUNCTION unused. -/
  | mult (rs rt rd : RegIdx) (shamt : Shamt) (funct : Funct)
  /-- DIV, R131. Format R; SHAMT and FUNCTION unused. -/
  | div (rs rt rd : RegIdx) (shamt : Shamt) (funct : Funct)
  /-- BEQ, R150. Format I; offset bits 18 to 10 unused. -/
  | beq (rs rt : RegIdx) (offset : Imm19)
  /-- BNE, R151. Format I; offset bits 18 to 10 unused. -/
  | bne (rs rt : RegIdx) (offset : Imm19)
  /-- LW, R161. Format I: RS the base, RT the destination. -/
  | lw (rs rt : RegIdx) (offset : Imm19)
  /-- LB, R162. Format I: RS the base, RT the destination. -/
  | lb (rs rt : RegIdx) (offset : Imm19)
  /-- SW, R163. Format I: RS the base, RT the data. -/
  | sw (rs rt : RegIdx) (offset : Imm19)
  /-- J, R180. Format J; address bits 26 to 10 unused. -/
  | j (address : Addr27)
  /-- ADDI, R140. Format I: RS the source, RT the destination. -/
  | addi (rs rt : RegIdx) (imm : Imm19)
  /-- NOP, R185. Its own format; the low 27 bits are in no source (R84). -/
  | nop (low : Addr27)
  deriving DecidableEq, Repr

end Sys2Proof
end

