-- ==== Sys2Proof/WellFormed.lean ====
section
/-! DEFINITION. Which instructions are canonical: every field the instruction does not use is zero (spec/30_encoding.md
R93). The width of each field is its type's; nothing else can be wrong with an instruction. -/

namespace Sys2Proof

/-- R93: SHAMT and FUNCTION are unused by the seven three-register instructions, RS and FUNCTION by the shifts, bits 18
to 10 by the branches, bits 26 to 10 by J, bits 26 to 0 by NOP; ADDI, LW, LB and SW use every bit (R140, R160). -/
def Instr.WellFormed : Instr → Bool
  | .add _ _ _ shamt funct => shamt == 0 && funct == 0
  | .sub _ _ _ shamt funct => shamt == 0 && funct == 0
  | .and _ _ _ shamt funct => shamt == 0 && funct == 0
  | .or _ _ _ shamt funct => shamt == 0 && funct == 0
  | .nor _ _ _ shamt funct => shamt == 0 && funct == 0
  | .sll rs _ _ _ funct => rs == 0 && funct == 0
  | .srl rs _ _ _ funct => rs == 0 && funct == 0
  | .mult _ _ _ shamt funct => shamt == 0 && funct == 0
  | .div _ _ _ shamt funct => shamt == 0 && funct == 0
  | .beq _ _ offset => offset.extractLsb' 10 9 == 0
  | .bne _ _ offset => offset.extractLsb' 10 9 == 0
  | .lw _ _ _ => true
  | .lb _ _ _ => true
  | .sw _ _ _ => true
  | .j address => address.extractLsb' 10 17 == 0
  | .addi _ _ _ => true
  | .nop low => low == 0

end Sys2Proof
end

