-- ==== Sys2Proof/Decode.lean ====
section
/-! DEFINITION. Decoding and encoding of the 32-bit instruction word (spec/30_encoding.md R80 to R95). Decoding is
total on words and rejects by name; the encoder is written from the same tables. -/

namespace Sys2Proof

/-- Why a word is no instruction. -/
inductive DecodeError where
  /-- The operation code is one of `10000` to `11110` (R94 a). -/
  | illegalOpcode (word : Word)
  /-- `STRICT_DECODE = true` and a field of format R that the instruction does not use is not zero (R94 b). -/
  | nonCanonical (word : Word)
  deriving DecidableEq, Repr

/-- `OPCODE = instr[31:27]` (R80; spec/90_conflicts.md C1). -/
def opcodeField (w : Word) : Opcode := w.extractLsb' 27 5
/-- `RS = instr[26:23]` (R81, R82). -/
def rsField (w : Word) : RegIdx := w.extractLsb' 23 4
/-- `RT = instr[22:19]` (R81, R82). -/
def rtField (w : Word) : RegIdx := w.extractLsb' 19 4
/-- `RD = instr[18:15]` (R81). -/
def rdField (w : Word) : RegIdx := w.extractLsb' 15 4
/-- `SHAMT = instr[14:10]` (R81, R92). -/
def shamtField (w : Word) : Shamt := w.extractLsb' 10 5
/-- `FUNCTION = instr[9:0]` (R81; spec/90_conflicts.md C2). -/
def functField (w : Word) : Funct := w.extractLsb' 0 10
/-- `OFFSET / INMEDIATO = instr[18:0]` (R82). -/
def immField (w : Word) : Imm19 := w.extractLsb' 0 19
/-- `DIRECCIÓN = instr[26:0]` (R83). -/
def addressField (w : Word) : Addr27 := w.extractLsb' 0 27

/-- The five fields of format R below the operation code, given to a constructor (R81). -/
def formatR (mk : RegIdx → RegIdx → RegIdx → Shamt → Funct → Instr) (w : Word) : Instr :=
  mk (rsField w) (rtField w) (rdField w) (shamtField w) (functField w)

/-- The three fields of format I below the operation code, given to a constructor (R82). -/
def formatI (mk : RegIdx → RegIdx → Imm19 → Instr) (w : Word) : Instr :=
  mk (rsField w) (rtField w) (immField w)

/-- R88: the operation code alone selects the instruction; `10000` to `11110` are not assigned (R94 a). -/
def decode (w : Word) : Except DecodeError Instr :=
  match (opcodeField w).toNat with
  | 0 => .ok (formatR .add w)
  | 1 => .ok (formatR .sub w)
  | 2 => .ok (formatR .and w)
  | 3 => .ok (formatR .or w)
  | 4 => .ok (formatR .nor w)
  | 5 => .ok (formatR .sll w)
  | 6 => .ok (formatR .srl w)
  | 7 => .ok (formatR .mult w)
  | 8 => .ok (formatR .div w)
  | 9 => .ok (formatI .beq w)
  | 10 => .ok (formatI .bne w)
  | 11 => .ok (formatI .lw w)
  | 12 => .ok (formatI .lb w)
  | 13 => .ok (formatI .sw w)
  | 14 => .ok (.j (addressField w))
  | 15 => .ok (formatI .addi w)
  | 31 => .ok (.nop (addressField w))
  | _ => .error (.illegalOpcode w)

/-- What the strict decoder accepts (R94 b to d, R95): the unused fields of format R must be zero; the unused bits of
BEQ, BNE, J and NOP are never an error. -/
def Instr.strictAccepts : Instr → Bool
  | .add _ _ _ shamt funct => shamt == 0 && funct == 0
  | .sub _ _ _ shamt funct => shamt == 0 && funct == 0
  | .and _ _ _ shamt funct => shamt == 0 && funct == 0
  | .or _ _ _ shamt funct => shamt == 0 && funct == 0
  | .nor _ _ _ shamt funct => shamt == 0 && funct == 0
  | .sll rs _ _ _ funct => rs == 0 && funct == 0
  | .srl rs _ _ _ funct => rs == 0 && funct == 0
  | .mult _ _ _ shamt funct => shamt == 0 && funct == 0
  | .div _ _ _ shamt funct => shamt == 0 && funct == 0
  | .beq _ _ _ | .bne _ _ _ | .lw _ _ _ | .lb _ _ _ | .sw _ _ _ | .j _ | .addi _ _ _ | .nop _ => true

/-- Decoding under the parameter `STRICT_DECODE` (R7, R94): an unassigned code is reported before a non-canonical word
(R201). -/
def decodeWord (strict : Bool) (w : Word) : Except DecodeError Instr :=
  match decode w with
  | .error e => .error e
  | .ok i => if strict && !i.strictAccepts then .error (.nonCanonical w) else .ok i

/-- The instruction word held in four bytes, the one at the lowest address first (R55: big-endian). -/
def wordOfBytes (b0 b1 b2 b3 : Byte) : Word := b0 ++ b1 ++ b2 ++ b3

/-- A program laid out as bytes, read as the words of instruction memory (R55); bytes after the last whole word are
no word. -/
def wordsOfBytes : List Byte → List Word
  | b0 :: b1 :: b2 :: b3 :: rest => wordOfBytes b0 b1 b2 b3 :: wordsOfBytes rest
  | _ => []

/-- A word of format R from its six fields (R81). -/
def encodeR (op : Opcode) (rs rt rd : RegIdx) (shamt : Shamt) (funct : Funct) : Word :=
  op ++ rs ++ rt ++ rd ++ shamt ++ funct

/-- A word of format I from its four fields (R82). -/
def encodeI (op : Opcode) (rs rt : RegIdx) (imm : Imm19) : Word := op ++ rs ++ rt ++ imm

/-- A word of format J, or of NOP's own format, from its two fields (R83, R84). -/
def encodeJ (op : Opcode) (address : Addr27) : Word := op ++ address

/-- The operation code of each instruction (R88). -/
def Instr.opcode : Instr → Opcode
  | .add .. => 0b00000
  | .sub .. => 0b00001
  | .and .. => 0b00010
  | .or .. => 0b00011
  | .nor .. => 0b00100
  | .sll .. => 0b00101
  | .srl .. => 0b00110
  | .mult .. => 0b00111
  | .div .. => 0b01000
  | .beq .. => 0b01001
  | .bne .. => 0b01010
  | .lw .. => 0b01011
  | .lb .. => 0b01100
  | .sw .. => 0b01101
  | .j .. => 0b01110
  | .addi .. => 0b01111
  | .nop .. => 0b11111

/-- The word of an instruction (R81 to R84, R88). -/
def encode (i : Instr) : Word :=
  match i with
  | .add rs rt rd shamt funct | .sub rs rt rd shamt funct | .and rs rt rd shamt funct
  | .or rs rt rd shamt funct | .nor rs rt rd shamt funct | .sll rs rt rd shamt funct
  | .srl rs rt rd shamt funct | .mult rs rt rd shamt funct
  | .div rs rt rd shamt funct => encodeR i.opcode rs rt rd shamt funct
  | .beq rs rt offset | .bne rs rt offset | .lw rs rt offset | .lb rs rt offset | .sw rs rt offset
  | .addi rs rt offset => encodeI i.opcode rs rt offset
  | .j address => encodeJ i.opcode address
  | .nop low => encodeJ i.opcode low

/-- The canonical form of an instruction (R93): every field it does not use zero. Its word is what an assembler written
from the spec emits; NOP's is 0xF8000000 (R84). -/
def Instr.canonical : Instr → Instr
  | .add rs rt rd _ _ => .add rs rt rd 0 0
  | .sub rs rt rd _ _ => .sub rs rt rd 0 0
  | .and rs rt rd _ _ => .and rs rt rd 0 0
  | .or rs rt rd _ _ => .or rs rt rd 0 0
  | .nor rs rt rd _ _ => .nor rs rt rd 0 0
  | .sll _ rt rd shamt _ => .sll 0 rt rd shamt 0
  | .srl _ rt rd shamt _ => .srl 0 rt rd shamt 0
  | .mult rs rt rd _ _ => .mult rs rt rd 0 0
  | .div rs rt rd _ _ => .div rs rt rd 0 0
  | .beq rs rt offset => .beq rs rt ((offset.setWidth 10).setWidth 19)
  | .bne rs rt offset => .bne rs rt ((offset.setWidth 10).setWidth 19)
  | .lw rs rt offset => .lw rs rt offset
  | .lb rs rt offset => .lb rs rt offset
  | .sw rs rt offset => .sw rs rt offset
  | .j address => .j ((address.setWidth 10).setWidth 27)
  | .addi rs rt imm => .addi rs rt imm
  | .nop _ => .nop 0

/-- The host's question: the instruction the decoder reads from an instruction whose bits are `w`, numbered with bit 0
the least significant of the one 32-bit word. JOF32's words are whole 32-bit words (R55, R80), so no byte order enters;
bits at and above `nbits` are zero, and bits above 31 belong to no instruction. -/
def decodeTableWord (nbits w : Nat) : Option Instr :=
  if w % 2 ^ nbits < 2 ^ 32 then
    match decode (BitVec.ofNat 32 (w % 2 ^ nbits)) with
    | .ok i => some i
    | .error _ => none
  else none

end Sys2Proof
end

