-- ==== Sys2Proof/Config.lean ====
section
/-! DEFINITION. What the spec fixes as sizes, what it leaves open as parameters of a run (spec/00_scope.md R6, R7;
spec/92_eei_decisions.md), and the values it leaves open altogether, as constants without a body. -/

namespace Sys2Proof

/-- `FLAG_REG_POLICY` (R24, D3). -/
inductive FlagPolicy where
  /-- An instruction that uses `FLAG_REG` in a register field is `ReservedRegister`. -/
  | reserved
  /-- The register behaves as a general-purpose register and nothing writes it implicitly. -/
  | ordinary
  deriving DecidableEq, Repr

/-- How a shorter value is widened to 32 bits: `IMM_EXT` and `LB_EXT` (R13, D4, D5). -/
inductive Extension where
  | zero
  | sign
  deriving DecidableEq, Repr

/-- Whether a run supplies `DIV_FN` (R131, R132, D6). -/
inductive DivSupply where
  /-- `DIV_FN` is `Config.divFn`, about which nothing is known. -/
  | supplied
  /-- No function: the operands outside the agreement domain are `DivideUndecided`. -/
  | unsupplied
  deriving DecidableEq, Repr

/-- `DIV_ZERO` (R133, D7). -/
inductive DivZero where
  /-- Division by zero is `DivideByZero`. -/
  | fault
  /-- The destination receives a value drawn afresh, `Config.freeWord` of the draw's number. -/
  | anyValue
  deriving DecidableEq, Repr

/-- `OUT_OF_RANGE` (R56, D10). -/
inductive RangePolicy where
  | fault
  | wrap
  deriving DecidableEq, Repr

/-- `PC_WRAP` (R31, D11). -/
inductive PcPolicy where
  | wrap
  | fault
  deriving DecidableEq, Repr

/-- What reading a register does that no instruction has written since reset: the two settings of R27 and D17 (U5 of
spec/93_implementation_defined.md), and the model's own. -/
inductive UnwrittenPolicy where
  /-- The read is `UnwrittenRegister` (R27, R195). -/
  | fault
  /-- The read answers a value drawn afresh, `Config.freeWord` of the draw's number (R27). -/
  | anyValue
  /-- The read answers what the register held at reset. Not a setting of the spec's: log entry 1. -/
  | resetValue
  deriving DecidableEq, Repr

/-- `IMEM_MODEL` (R36, D9). -/
inductive ImemModel where
  /-- Instruction memory is a memory of its own. -/
  | separate
  /-- Instruction word `a` occupies data bytes `4a` to `4a + 3`, big-endian. -/
  | unified
  deriving DecidableEq, Repr

/-- `END_OF_RUN` (R7, R228, D15). -/
inductive EndOfRun where
  /-- The instruction at `pc` is a J whose target is `pc`. -/
  | selfJump
  /-- `pc` is an address the launch names. Not a setting of the spec's: log entry 25. -/
  | reaches (address : PcAddr)
  deriving DecidableEq, Repr

/-- The named parameters of R7, each with the default that rule gives it, and the policy of R27. `IMEM_INIT` and
`DMEM_INIT` are the memories a run is launched with, fields of State. `DIV_FN` and `HAZARD_NOPS` are OPEN: their values
here assume nothing of the first and `HAZARD_NOPS` = 0 (R232, log entry 8). -/
structure Params where
  /-- `ZERO_REG` (R21, R23, D1). -/
  zeroReg : RegIdx := 0
  /-- `FLAG_REG` (R21, R24, D2). -/
  flagReg : RegIdx := 15
  flagPolicy : FlagPolicy := .reserved
  /-- R27, R195, D17. -/
  unwritten : UnwrittenPolicy := .fault
  /-- `IMM_EXT`: the immediate of ADDI, LW, LB and SW (R89). -/
  immExt : Extension := .zero
  /-- `LB_EXT`: the byte LB loads (R162). -/
  lbExt : Extension := .zero
  divFn : DivSupply := .unsupplied
  divZero : DivZero := .fault
  /-- `STRICT_DECODE` (R94, D8). -/
  strictDecode : Bool := false
  imemModel : ImemModel := .separate
  /-- `IMEM_WORDS`, by default 2^`PC_BITS`: the instruction addresses that hold a word are those below it (R36, D9). -/
  imemWords : Nat := 1024
  outOfRange : RangePolicy := .fault
  pcWrap : PcPolicy := .wrap
  /-- `RESET_PC` (R41, D12). -/
  resetPc : PcAddr := 0
  /-- `HAZARD_NOPS`, read by the padding conditions of Safety.lean and by no step (R232, D14). -/
  hazardNops : Nat := 0
  endOfRun : EndOfRun := .selfJump
  deriving DecidableEq, Repr

/-- `DATA_SPACE_BYTES` = 2 MB = 2^21 (R6, R37): data addresses are 0 to 0x1FFFFF. -/
def dataSpaceBytes : Nat := 2097152

/-- `DIV_FN(a, b)` (R132, OPEN): a total function of the two operands and of nothing else, about which the model
assumes nothing. It is asked only outside the agreement domain and never for `b = 0`. -/
opaque Config.divFn : Word → Word → Word

/-- The n-th value a run draws under no law: for a division by zero under `DIV_ZERO = any value` (R133), for a read of an
unwritten register under `UnwrittenPolicy.anyValue` (R27). `State.draws` numbers the draws, so that each is afresh. -/
opaque Config.freeWord : Nat → Word

end Sys2Proof
end

