-- ==== Sys2Proof/Machine/Launch.lean ====
section
/-! DEFINITION. What a run starts with: the parameter values of reset, and the contents of registers and memories that
the spec leaves to the launch (spec/10_state.md R40 to R46; spec/70_reset_and_hazards.md R220 to R225). -/

namespace Sys2Proof.Machine

/-- Data memory: (byte address, byte) pairs in the canonical form of `Memory.wf`; a byte not listed was never given a
value (R37, R44). -/
abbrev Memory := List Host.Cell

/-- Instruction memory: (instruction address, word) pairs in the canonical form of `InstrMemory.wf`; a word not listed
is not defined by the launch (R36, R44). -/
abbrev InstrMemory := List (Nat × Word)

/-- The defaults this spec chose, each as spec/00_scope.md R7 lists it and `Params` repeats it. -/
def specDefaults : Params := {}

/-- The parameters of the reset state: the spec's defaults, but where the default ends a run although the spec itself
names a setting under which the instruction runs, that setting is taken; and reading a register that nothing has
written answers its reset value.
DESIGN CHOICE, log entries 1 (not a setting of the spec's, unsafe), 2 (`DIV_ZERO`, safe), 3 (`DIV_FN`, safe) and 4
(`FLAG_REG_POLICY`, unsafe). -/
def launchParams : Params :=
  { specDefaults with
    flagPolicy := .ordinary, unwritten := .resetValue, divFn := .supplied, divZero := .anyValue }

/-- The 16 registers at launch. The spec gives none a value but the zero register (R42, R43, R45).
DESIGN CHOICE, log entry 1, unsafe: each holds zero. -/
def launchRegs : Vector Word 16 := Vector.replicate 16 0

/-- No register has been written at launch (R27, R45). -/
def launchWritten : Vector Bool 16 := Vector.replicate 16 false

/-- The program of `Sys2Proof.Machine.State.reset`: none; a program comes from outside the machine (R225, log entry 5). -/
def launchImem : InstrMemory := []

/-- The data of `Sys2Proof.Machine.State.reset`: no byte has a value (R44, log entry 6). -/
def launchDmem : Memory := []

/-- Words as the contents of an instruction memory of `bound` words from an instruction address on (R224: instruction k
of the program at instruction address k); words past its end have no place (R65). -/
def placeWords (bound at_ : Nat) : List Word → InstrMemory
  | [] => []
  | w :: rest => if at_ < bound then (at_, w) :: placeWords bound (at_ + 1) rest else []

end Sys2Proof.Machine
end

