-- ==== Sys2Proof/Machine/State.lean ====
section
/-! DEFINITION. The machine's state, its faults and refusals, and the state after reset (spec/10_state.md;
spec/60_exceptions.md section 2; spec/70_reset_and_hazards.md section 1). -/

namespace Sys2Proof.Machine

/-- Everything the spec gives the machine, as plain data. -/
structure State where
  /-- R0 to R15, 32 bits each (R20). -/
  regs : Vector Word 16
  /-- Which registers an instruction has written since reset (R11, R27, R195). -/
  written : Vector Bool 16
  /-- The program counter, 10 bits, in whole instructions (R28). -/
  pc : PcAddr
  /-- Instruction memory under `IMEM_MODEL = separate`: `IMEM_WORDS` words of 32 bits (R36). -/
  imem : InstrMemory
  /-- Data memory, 2^21 bytes (R37). -/
  dmem : Memory
  /-- The MODEL's own field: the parameters of the run (R7, R40). The host's `exec` takes none beside the state; no
  step changes them. -/
  params : Params
  /-- The MODEL's own field: how many free values the run has drawn (R27, R133). -/
  draws : Nat
  deriving DecidableEq, Repr

/-- The model-level faults (R15). Each leaves the state as it was before the step (R202: a fault carries no state) and
is SAFE: the machine stops where the sources give the situation no defined behaviour (R191). -/
inductive Fault where
  /-- R192, raised by the fetch: an operation code `10000` to `11110` (`some` the word), or a word the launch left
  undefined (`none`). Safe. -/
  | illegalOpcode (word : Option Word)
  /-- R193, raised by the fetch under `STRICT_DECODE = true`. Safe. -/
  | nonCanonicalEncoding (word : Word)
  /-- R194, raised by every instruction with a used register field, under `FLAG_REG_POLICY = reserved`. Safe. -/
  | reservedRegister (reg : RegIdx)
  /-- R195, raised by every instruction that reads a register, under the policy `UnwrittenPolicy.fault`: all but J and
  NOP. Safe. -/
  | unwrittenRegister (reg : RegIdx)
  /-- R196, raised by LW, LB and SW under `OUT_OF_RANGE = fault`. Safe. -/
  | addressOutOfRange (addr : Word)
  /-- R197, raised by LW and SW. Safe. -/
  | misalignedAccess (addr : Word)
  /-- R212, raised by LW and LB, with the lowest byte of the access that has no value. Safe. -/
  | undefinedMemory (addr : Word)
  /-- R198, raised by DIV under `DIV_ZERO = fault`. Safe. -/
  | divideByZero
  /-- R199, raised by DIV where `DIV_FN` is not supplied. Safe. -/
  | divideUndecided (a b : Word)
  /-- R200, raised at `pc` = 1023 by an instruction that does not transfer control, under `PC_WRAP = fault`. Safe. -/
  | pcOverflow
  deriving DecidableEq, Repr

/-- Why the model has no meaning for an instruction. -/
inductive Refusal where
  /-- Raised by an arm of `exec` that has no meaning yet; every instruction of JOF32 has one, so no arm raises it.
  Safe. -/
  | notModelled (mnemonic : String)
  deriving DecidableEq, Repr

/-- The launch state (R220 to R222): what the run is given, each argument with its default (R7), and `pc` at `RESET_PC`
(R41). -/
def State.launch (p : Params := specDefaults) (imem : InstrMemory := launchImem) (dmem : Memory := launchDmem) :
    State where
  regs := launchRegs
  written := launchWritten
  pc := p.resetPc
  imem := imem
  dmem := dmem
  params := p
  draws := 0

/-- The machine right after reset, nothing placed in either memory (R46, R220). -/
def State.reset : State := State.launch launchParams launchImem launchDmem

end Sys2Proof.Machine
end

