-- ==== Sys2Proof/Machine/Ops.lean ====
section
/-! DEFINITION. The named operations over registers, the program counter and the two memories, which every meaning is
written with (spec/00_scope.md R11 to R16; spec/20_memory.md R52 to R60). JOF32 has no exception entry and no return
from one (R190, R205): there is none here. -/

namespace Sys2Proof.Machine

/-- What one instruction, or one step, answers. -/
abbrev Result := Host.Outcome State Fault Refusal

/-- What an operation that may fault answers, given how the instruction goes on when it does not (R15). -/
def proceed {α : Type} (r : Except Fault α) (k : α → Result) : Result :=
  match r with
  | .ok v => k v
  | .error f => .fault f

/-! ### One field of the state replaced -/

/-- One register given a value, and recorded as written since reset. -/
def State.setReg (s : State) (i : RegIdx) (v : Word) : State :=
  { s with regs := s.regs.set i.toNat v i.isLt, written := s.written.set i.toNat true i.isLt }
def State.setPc (s : State) (p : PcAddr) : State := { s with pc := p }
def State.setImem (s : State) (m : InstrMemory) : State := { s with imem := m }
def State.setDmem (s : State) (m : Memory) : State := { s with dmem := m }
def State.setDraws (s : State) (n : Nat) : State := { s with draws := n }

/-! ### Cells of a memory -/

/-- The value at an address; `none` where no entry is listed. -/
def cellRead {α : Type} : List (Nat × α) → Nat → Option α
  | [], _ => none
  | (k, v) :: rest, a => if k = a then some v else cellRead rest a

/-- The memory with one address given a value, the entries kept in rising order. An unlisted address reads as no value,
so no written entry is ever equal to it and none is removed. -/
def cellWrite {α : Type} : List (Nat × α) → Nat → α → List (Nat × α)
  | [], a, v => [(a, v)]
  | (k, w) :: rest, a, v =>
    if a < k then (a, v) :: (k, w) :: rest
    else if a = k then (a, v) :: rest
    else (k, w) :: cellWrite rest a v

/-- Addresses strictly rising, none below `low`, all below `bound`. -/
def cellsWf {α : Type} (bound : Nat) : Nat → List (Nat × α) → Bool
  | _, [] => true
  | low, (k, _) :: rest => decide (low ≤ k) && decide (k < bound) && cellsWf bound (k + 1) rest

/-- The canonical form of data memory: addresses strictly rising, within the 2 MB space (R37). -/
def Memory.wf (m : Memory) : Bool := cellsWf dataSpaceBytes 0 m

/-- The canonical form of instruction memory: addresses strictly rising, within its `IMEM_WORDS` words (R36). -/
def InstrMemory.wf (bound : Nat) (m : InstrMemory) : Bool := cellsWf bound 0 m

/-! ### Registers -/

/-- What register `i` holds (R23): the zero register 0, every other the last value written to it (R26) or, before any, its
value at reset. What an instruction reads there is `State.operand`. -/
def State.readReg (s : State) (i : RegIdx) : Word :=
  if i = s.params.zeroReg then 0 else s.regs.get i.toFin

/-- `x[i] <- v` (R12, R23): a write to the zero register is discarded. -/
def State.writeReg (s : State) (i : RegIdx) (v : Word) : State :=
  if i = s.params.zeroReg then s else s.setReg i v

/-- Whether a register field names the branch-flag register while it is reserved (R24). -/
def State.reserves (s : State) (i : RegIdx) : Bool :=
  s.params.flagPolicy == .reserved && i == s.params.flagReg

/-- R24, R201 (3): the register fields the instruction uses, in the order RS, RT, RD, the destination among them, are
checked before anything is read; the first that is reserved is the fault. -/
def guardRegs (s : State) (fields : List RegIdx) (k : Result) : Result :=
  match fields.find? s.reserves with
  | some i => .fault (.reservedRegister i)
  | none => k

/-- Whether no instruction has written a register since reset (R27); the zero register always has a value. -/
def State.unset (s : State) (i : RegIdx) : Bool := i != s.params.zeroReg && !s.written.get i.toFin

/-- Whether reading a register is `UnwrittenRegister` (R27, R195; the policy: log entry 1). -/
def State.lacksValue (s : State) (i : RegIdx) : Bool := s.params.unwritten == .fault && s.unset i

/-- Whether reading a register draws a value afresh, the alternative R27 gives to the fault. -/
def State.drawsAt (s : State) (i : RegIdx) : Bool := s.params.unwritten == .anyValue && s.unset i

/-- R201 (4): the registers the instruction reads, RS then RT, are checked before anything is computed; the first that
no instruction has written is the fault. -/
def guardReads (s : State) (read : List RegIdx) (k : Result) : Result :=
  match read.find? s.lacksValue with
  | some i => .fault (.unwrittenRegister i)
  | none => k

/-- How many values reading these registers draws (R27: one at each such read). -/
def State.drawsFor (s : State) (read : List RegIdx) : Nat := (read.filter s.drawsAt).length

/-- `x[i]`, read by an instruction that has read the registers `before` already (R11): what the register holds; where R27
asks for a draw, the first value that neither the run nor those reads have drawn. Whether the instruction may name the
register is `guardRegs`'s question, and whether the read is a fault `guardReads`'s. -/
def State.operand (s : State) (before : List RegIdx) (i : RegIdx) : Word :=
  if s.drawsAt i then Config.freeWord (s.draws + s.drawsFor before) else s.readReg i

/-- The state an instruction goes on from once it has read its sources: their draws are counted. -/
def State.afterReads (s : State) (read : List RegIdx) : State := s.setDraws (s.draws + s.drawsFor read)

/-- How an instruction with register operands begins (R201 (3), (4)): its fields are checked, then its source registers,
and it goes on from the state in which these have been read. -/
def withOperands (s : State) (fields read : List RegIdx) (k : State → Result) : Result :=
  guardRegs s fields (guardReads s read (k (s.afterReads read)))

/-! ### The program counter -/

/-- `pc <- pc + 1` (R16, R31): the 10-bit sum, or `PcOverflow` at 1023 under `PC_WRAP = fault`. -/
def State.advance (s : State) : Result :=
  if s.params.pcWrap = .fault ∧ s.pc = 1023 then .fault .pcOverflow
  else .next (s.setPc (s.pc + 1))

/-- `pc <- t` (R16): every 10-bit value is an instruction address (R30). -/
def State.jumpTo (s : State) (t : PcAddr) : Result := .next (s.setPc t)

/-- How every instruction that writes a register ends: `x[i] <- v; pc <- pc + 1`. -/
def State.finish (s : State) (i : RegIdx) (v : Word) : Result := (s.writeReg i v).advance

/-! ### Data memory -/

/-- The two access widths (R50, R62). -/
inductive Width where
  | byte
  | word
  deriving DecidableEq, Repr

/-- The bytes of an access: `n` in 1, 4 (R56). -/
def Width.bytes : Width → Nat
  | .byte => 1
  | .word => 4

/-- R59, R60: a word access whose address is not a multiple of 4 is `MisalignedAccess`; a byte access is always
aligned. -/
def checkAligned (a : Nat) (n : Width) : Except Fault Nat :=
  if n = .word ∧ a % 4 ≠ 0 then .error (.misalignedAccess (BitVec.ofNat 32 a)) else .ok a

/-- The range and alignment checks of R56 and R57, in that order; the answer is the byte address accessed. The range is
computed without wrap-around, and under `OUT_OF_RANGE = wrap` the address is reduced modulo 2^21. -/
def State.place (s : State) (addr : Word) (n : Width) : Except Fault Nat :=
  if addr.toNat + n.bytes - 1 ≥ dataSpaceBytes then
    match s.params.outOfRange with
    | .fault => .error (.addressOutOfRange addr)
    | .wrap => checkAligned (addr.toNat % dataSpaceBytes) n
  else checkAligned addr.toNat n

/-- One byte of a load: a byte that was never given a value is `UndefinedMemory` (R56, R212). -/
def Memory.byteAt (m : Memory) (a : Nat) : Except Fault Byte :=
  match cellRead m a with
  | some b => .ok b
  | none => .error (.undefinedMemory (BitVec.ofNat 32 a))

/-- The big-endian word at a byte address (R52): the byte at the lowest address is bits 31 to 24. The bytes are read in
rising order, so the lowest one without a value is the one reported. -/
def Memory.wordAt (m : Memory) (a : Nat) : Except Fault Word := do
  let b0 ← m.byteAt a
  let b1 ← m.byteAt (a + 1)
  let b2 ← m.byteAt (a + 2)
  let b3 ← m.byteAt (a + 3)
  return b0 ++ b1 ++ b2 ++ b3

/-- Data memory with a word stored big-endian at a byte address (R57). -/
def Memory.setWord (m : Memory) (a : Nat) (v : Word) : Memory :=
  cellWrite (cellWrite (cellWrite (cellWrite m a (v.extractLsb' 24 8)) (a + 1) (v.extractLsb' 16 8))
    (a + 2) (v.extractLsb' 8 8)) (a + 3) (v.extractLsb' 0 8)

/-- `MemRead(addr, 1)` (R56). -/
def State.loadByte (s : State) (addr : Word) : Except Fault Byte := do
  let a ← s.place addr .byte
  s.dmem.byteAt a

/-- `MemRead(addr, 4)` (R56). -/
def State.loadWord (s : State) (addr : Word) : Except Fault Word := do
  let a ← s.place addr .word
  s.dmem.wordAt a

/-- `MemWrite(addr, 4, v)` (R57): the checks of a read, then all four bytes in one step. JOF32 has no byte store (R62). -/
def State.storeWord (s : State) (addr : Word) (v : Word) : Except Fault State := do
  let a ← s.place addr .word
  return s.setDmem (s.dmem.setWord a v)

/-! ### The next free value -/

/-- A value drawn under no law, and the state in which the next draw is another (R133). -/
def State.draw (s : State) : Word × State := (Config.freeWord s.draws, s.setDraws (s.draws + 1))

/-! ### Fetch and decode -/

/-- The model-level fault of a word that is no instruction (R192, R193). -/
def DecodeError.toFault : DecodeError → Fault
  | .illegalOpcode w => .illegalOpcode (some w)
  | .nonCanonical w => .nonCanonicalEncoding w

/-- `IFetch(a)` (R58), `none` where the word is undefined. Under `IMEM_MODEL = separate` it is word `a` of instruction
memory; under `unified` it is the big-endian word of data bytes `4a` to `4a + 3`, undefined where one of them is (R36,
R55; log entry 18). Addresses at and above `IMEM_WORDS` hold no word. -/
def State.instrWord (s : State) (a : PcAddr) : Option Word :=
  if a.toNat < s.params.imemWords then
    match s.params.imemModel with
    | .separate => cellRead s.imem a.toNat
    | .unified => (s.dmem.wordAt (4 * a.toNat)).toOption
  else none

/-- `IFetch(pc)` (R58) and the decoding of its word (R16); a word the launch left undefined is `IllegalOpcode`. -/
def State.fetch (s : State) : Except Fault Instr :=
  match s.instrWord s.pc with
  | none => .error (.illegalOpcode none)
  | some w =>
    match decodeWord s.params.strictDecode w with
    | .ok i => .ok i
    | .error e => .error (DecodeError.toFault e)

end Sys2Proof.Machine
end

