-- ==== Sys2Proof/Machine/Operands.lean ====
section
/-! DEFINITION. The operand forms: widening of immediates and bytes, the effective address, the branch and jump targets,
and which registers each instruction uses (spec/00_scope.md R13; spec/10_state.md R25; spec/30_encoding.md R89 to R92;
spec/45_load_store.md R160). -/

namespace Sys2Proof.Machine

/-- `zext_32` and `sext_32` of a shorter value (R13). -/
def widen {n : Nat} (ext : Extension) (v : BitVec n) : Word :=
  match ext with
  | .zero => v.setWidth 32
  | .sign => v.signExtend 32

/-- `ext19(imm)` (R13, R89): the immediate is neither scaled nor shifted. -/
def State.ext19 (s : State) (imm : Imm19) : Word := widen s.params.immExt imm

/-- `extb(b)` (R13, R162). -/
def State.extb (s : State) (b : Byte) : Word := widen s.params.lbExt b

/-- The effective address of LW, LB and SW: base plus immediate offset, modulo 2^32, in bytes (R160). -/
def State.effAddr (s : State) (rs : RegIdx) (imm : Imm19) : Word := s.operand [] rs + s.ext19 imm

/-- The target of BEQ and BNE: `instr[9:0]`, an absolute instruction address (R90). -/
def branchTarget (offset : Imm19) : PcAddr := offset.setWidth 10

/-- The target of J: `instr[9:0]`, an absolute instruction address (R91). -/
def jumpTarget (address : Addr27) : PcAddr := address.setWidth 10

/-- The registers an instruction reads (the table of R25), in the order RS, RT. -/
def sources : Instr → List RegIdx
  | .add rs rt _ _ _ | .sub rs rt _ _ _ | .and rs rt _ _ _ | .or rs rt _ _ _ | .nor rs rt _ _ _
  | .mult rs rt _ _ _ | .div rs rt _ _ _ => [rs, rt]
  | .sll _ rt _ _ _ | .srl _ rt _ _ _ => [rt]
  | .addi rs _ _ | .lw rs _ _ | .lb rs _ _ => [rs]
  | .beq rs rt _ | .bne rs rt _ | .sw rs rt _ => [rs, rt]
  | .j _ | .nop _ => []

/-- The register an instruction writes (the table of R25). -/
def destination : Instr → Option RegIdx
  | .add _ _ rd _ _ | .sub _ _ rd _ _ | .and _ _ rd _ _ | .or _ _ rd _ _ | .nor _ _ rd _ _
  | .mult _ _ rd _ _ | .div _ _ rd _ _ | .sll _ _ rd _ _ | .srl _ _ rd _ _ => some rd
  | .addi _ rt _ | .lw _ rt _ | .lb _ rt _ => some rt
  | .beq _ _ _ | .bne _ _ _ | .sw _ _ _ | .j _ | .nop _ => none

end Sys2Proof.Machine
end

