-- ==== Sys2Proof/Machine/AluRegister.lean ====
section
/-! DEFINITION. ADD, SUB, AND, OR, NOR (spec/40_alu_register.md R110 to R115). SHAMT and FUNCTION do not affect the
result (R115). -/

namespace Sys2Proof.Machine

/-- The order of events of a three-register instruction (R115): check RS, RT and RD, check that RS and RT have values,
read both sources, compute, write RD, set `pc`. -/
def threeRegister (rs rt rd : RegIdx) (s : State) (f : Word → Word → Word) : Result :=
  withOperands s [rs, rt, rd] [rs, rt] fun u => u.finish rd (f (s.operand [] rs) (s.operand [rs] rt))

/-- ADD: `x[RD] <- (x[RS] + x[RT]) mod 2^32` (R110). -/
def execAdd (rs rt rd : RegIdx) (s : State) : Result := threeRegister rs rt rd s (· + ·)

/-- SUB: `x[RD] <- (x[RS] - x[RT]) mod 2^32` (R111). -/
def execSub (rs rt rd : RegIdx) (s : State) : Result := threeRegister rs rt rd s (· - ·)

/-- AND: bitwise and (R112). -/
def execAnd (rs rt rd : RegIdx) (s : State) : Result := threeRegister rs rt rd s (· &&& ·)

/-- OR: bitwise inclusive or (R113). -/
def execOr (rs rt rd : RegIdx) (s : State) : Result := threeRegister rs rt rd s (· ||| ·)

/-- NOR: the complement of the bitwise or (R114). -/
def execNor (rs rt rd : RegIdx) (s : State) : Result := threeRegister rs rt rd s (fun a b => ~~~(a ||| b))

end Sys2Proof.Machine
end

