-- ==== Sys2Proof/Machine/Flags.lean ====
section
/-! DEFINITION. Conditions. JOF32 has no condition codes: no instruction records carry, overflow, zero or sign, and
BEQ and BNE do their own comparison (spec/10_state.md R33), which is here. -/

namespace Sys2Proof.Machine

/-- The comparison of BEQ and BNE: equality of all 32 bits of the two operands (R150, R151). -/
def State.regsEqual (s : State) (rs rt : RegIdx) : Bool := s.operand [] rs == s.operand [rs] rt

/-- A conditional branch (R150, R151): to the absolute target where the condition holds, else `pc + 1`. -/
def State.branchIf (s : State) (taken : Bool) (target : PcAddr) : Result :=
  if taken then s.jumpTo target else s.advance

end Sys2Proof.Machine
end

