-- ==== Sys2Proof/Machine/Branches.lean ====
section
/-! DEFINITION. BEQ and BNE (spec/44_branches.md R150, R151). No register is written and there is no delay slot
(R233). -/

namespace Sys2Proof.Machine

/-- BEQ: to `instr[9:0]` where the two registers are equal, else `pc + 1` (R150). -/
def execBeq (rs rt : RegIdx) (offset : Imm19) (s : State) : Result :=
  withOperands s [rs, rt] [rs, rt] fun u => u.branchIf (s.regsEqual rs rt) (branchTarget offset)

/-- BNE: to `instr[9:0]` where the two registers differ in any bit, else `pc + 1` (R151). -/
def execBne (rs rt : RegIdx) (offset : Imm19) (s : State) : Result :=
  withOperands s [rs, rt] [rs, rt] fun u => u.branchIf (!s.regsEqual rs rt) (branchTarget offset)

end Sys2Proof.Machine
end

