-- ==== Sys2Proof/Machine/Immediate.lean ====
section
/-! DEFINITION. ADDI (spec/43_immediate.md R140). -/

namespace Sys2Proof.Machine

/-- ADDI: `x[RT] <- (x[RS] + ext19(imm)) mod 2^32`; the destination is the RT field (R140). -/
def execAddi (rs rt : RegIdx) (imm : Imm19) (s : State) : Result :=
  withOperands s [rs, rt] [rs] fun u => u.finish rt (s.operand [] rs + s.ext19 imm)

end Sys2Proof.Machine
end

