-- ==== Sys2Proof/Machine/Jump.lean ====
section
/-! DEFINITION. J (spec/46_jump.md R180). -/

namespace Sys2Proof.Machine

/-- J: `pc <- instr[9:0]`; it reads no register and keeps no return address (R180). -/
def execJ (address : Addr27) (s : State) : Result := s.jumpTo (jumpTarget address)

end Sys2Proof.Machine
end

