-- ==== Sys2Proof/Machine/LoadStore.lean ====
section
/-! DEFINITION. LW, LB and SW (spec/45_load_store.md R160 to R164): RS is the base, RT the register loaded or stored. -/

namespace Sys2Proof.Machine

/-- LW: `x[RT] <- MemRead(ea, 4)` (R161); the read and its checks take place where RT is the zero register too (R23). -/
def execLw (rs rt : RegIdx) (offset : Imm19) (s : State) : Result :=
  withOperands s [rs, rt] [rs] fun u =>
    proceed (u.loadWord (s.effAddr rs offset)) fun v => u.finish rt v

/-- LB: `x[RT] <- extb(MemRead(ea, 1))`; the whole 19-bit offset forms the address (R162; spec/90_conflicts.md C4). -/
def execLb (rs rt : RegIdx) (offset : Imm19) (s : State) : Result :=
  withOperands s [rs, rt] [rs] fun u =>
    proceed (u.loadByte (s.effAddr rs offset)) fun b => u.finish rt (s.extb b)

/-- SW: `MemWrite(ea, 4, x[RT])` (R163). -/
def execSw (rs rt : RegIdx) (offset : Imm19) (s : State) : Result :=
  withOperands s [rs, rt] [rs, rt] fun u =>
    proceed (u.storeWord (s.effAddr rs offset) (s.operand [rs] rt)) State.advance

end Sys2Proof.Machine
end

