-- ==== Sys2Proof/Machine/MultiplyDivide.lean ====
section
/-! DEFINITION. MULT and DIV (spec/42_multiply_divide.md R130 to R133). -/

namespace Sys2Proof.Machine

/-- MULT: the low 32 bits of the product (R130). -/
def execMult (rs rt rd : RegIdx) (s : State) : Result := threeRegister rs rt rd s (· * ·)

/-- What DIV writes, and the state it goes on from (R131): `DivideByZero` or a drawn value for a zero divisor (R133);
the integer quotient where both operands are below 2^31; outside that domain `DIV_FN` where it is supplied (R132). -/
def State.quotient (s : State) (a b : Word) : Except Fault (Word × State) :=
  if b = 0 then
    match s.params.divZero with
    | .fault => .error .divideByZero
    | .anyValue => .ok s.draw
  else if a.toNat < 2 ^ 31 ∧ b.toNat < 2 ^ 31 then .ok (a / b, s)
  else
    match s.params.divFn with
    | .supplied => .ok (Config.divFn a b, s)
    | .unsupplied => .error (.divideUndecided a b)

/-- DIV: the dividend is `x[RS]`, the divisor `x[RT]`; the zero-divisor check applies where the result is discarded too
(R131). -/
def execDiv (rs rt rd : RegIdx) (s : State) : Result :=
  withOperands s [rs, rt, rd] [rs, rt] fun u =>
    proceed (u.quotient (s.operand [] rs) (s.operand [rs] rt)) fun q => q.2.finish rd q.1

end Sys2Proof.Machine
end

