-- ==== Sys2Proof/Machine/Nop.lean ====
section
/-! DEFINITION. NOP (spec/47_nop.md R185). -/

namespace Sys2Proof.Machine

/-- NOP: `pc <- pc + 1` and nothing else, whatever its low 27 bits (R185). -/
def execNop (s : State) : Result := s.advance

end Sys2Proof.Machine
end

