-- ==== Sys2Proof/Machine/Shifts.lean ====
section
/-! DEFINITION. SLL and SRL (spec/41_shifts.md R120, R121). The RS field is no register access. -/

namespace Sys2Proof.Machine

/-- SLL: `x[RD] <- (x[RT] * 2^SHAMT) mod 2^32` (R120). -/
def execSll (rt rd : RegIdx) (shamt : Shamt) (s : State) : Result :=
  withOperands s [rt, rd] [rt] fun u => u.finish rd (s.operand [] rt <<< shamt.toNat)

/-- SRL: `x[RD] <- floor(x[RT] / 2^SHAMT)`, zeros entering at the top (R121). -/
def execSrl (rt rd : RegIdx) (shamt : Shamt) (s : State) : Result :=
  withOperands s [rt, rd] [rt] fun u => u.finish rd (s.operand [] rt >>> shamt.toNat)

end Sys2Proof.Machine
end

