-- ==== Sys2Proof/Machine/Dispatch.lean ====
section
/-! DEFINITION. The meaning of each instruction, one arm per constructor of Instr. -/

namespace Sys2Proof.Machine

/-- What an instruction does to a state. -/
def exec (i : Instr) (s : State) : Host.Outcome State Fault Refusal :=
  match i with
  | .add rs rt rd _ _ => Sys2Proof.Machine.execAdd rs rt rd s
  | .sub rs rt rd _ _ => Sys2Proof.Machine.execSub rs rt rd s
  | .and rs rt rd _ _ => Sys2Proof.Machine.execAnd rs rt rd s
  | .or rs rt rd _ _ => Sys2Proof.Machine.execOr rs rt rd s
  | .nor rs rt rd _ _ => Sys2Proof.Machine.execNor rs rt rd s
  | .sll _ rt rd shamt _ => Sys2Proof.Machine.execSll rt rd shamt s
  | .srl _ rt rd shamt _ => Sys2Proof.Machine.execSrl rt rd shamt s
  | .mult rs rt rd _ _ => Sys2Proof.Machine.execMult rs rt rd s
  | .div rs rt rd _ _ => Sys2Proof.Machine.execDiv rs rt rd s
  | .beq rs rt offset => Sys2Proof.Machine.execBeq rs rt offset s
  | .bne rs rt offset => Sys2Proof.Machine.execBne rs rt offset s
  | .lw rs rt offset => Sys2Proof.Machine.execLw rs rt offset s
  | .lb rs rt offset => Sys2Proof.Machine.execLb rs rt offset s
  | .sw rs rt offset => Sys2Proof.Machine.execSw rs rt offset s
  | .j address => Sys2Proof.Machine.execJ address s
  | .addi rs rt imm => Sys2Proof.Machine.execAddi rs rt imm s
  | .nop _ => Sys2Proof.Machine.execNop s

end Sys2Proof.Machine
end

