-- ==== Sys2Proof/Machine/Step.lean ====
section
/-! DEFINITION. One step of the machine (spec/00_scope.md R16): fetch at `pc`, decode, run the rule of the instruction,
which ends by setting `pc`. One step is one whole instruction (spec/70_reset_and_hazards.md R231). -/

namespace Sys2Proof.Machine

/-- One step: next, fault or refusal. -/
def step (s : State) : Host.Outcome State Fault Refusal :=
  match s.fetch with
  | .ok i => exec i s
  | .error f => .fault f

/-- The state with a word at instruction address `pc`, in the memory that instructions are fetched from (R36). -/
def State.placeAtPc (s : State) (w : Word) : State :=
  match s.params.imemModel with
  | .separate => s.setImem (cellWrite s.imem s.pc.toNat w)
  | .unified => s.setDmem (s.dmem.setWord (4 * s.pc.toNat) w)

/-- The state with the instruction whose bits are `w` (bits at and above `nbits` zero) as the word at `pc`: it stands for
the load of a program from outside the machine (R225, log entry 5). -/
def State.withFetchWord (s : State) (nbits w : Nat) : State :=
  s.placeAtPc (BitVec.ofNat 32 (w % 2 ^ nbits))

end Sys2Proof.Machine
end

