-- ==== Sys2Proof/Machine/Assembly.lean ====
section
/-! DEFINITION. The assembler statement of an instruction (spec/30_encoding.md R97 to R99): the mnemonic in capitals, the
operands separated by commas in the assembler's order, which is not the order of the fields; numbers in decimal, `#`
before a shift amount and before ADDI's immediate as the format lines write it (R98). -/

namespace Sys2Proof

/-- The mnemonic, as the opcode table spells it (R88). -/
def Instr.mnemonic : Instr → String
  | .add .. => "ADD"
  | .sub .. => "SUB"
  | .and .. => "AND"
  | .or .. => "OR"
  | .nor .. => "NOR"
  | .sll .. => "SLL"
  | .srl .. => "SRL"
  | .mult .. => "MULT"
  | .div .. => "DIV"
  | .beq .. => "BEQ"
  | .bne .. => "BNE"
  | .lw .. => "LW"
  | .lb .. => "LB"
  | .sw .. => "SW"
  | .j .. => "J"
  | .addi .. => "ADDI"
  | .nop .. => "NOP"

/-- `R` and the register's decimal number (R97). -/
def regName (i : RegIdx) : String := "R" ++ toString i.toNat

/-- The operands after the mnemonic, in the assembler's order (R97, R99). -/
def Instr.operandText : Instr → String
  | .add rs rt rd _ _ | .sub rs rt rd _ _ | .and rs rt rd _ _ | .or rs rt rd _ _ | .nor rs rt rd _ _
  | .mult rs rt rd _ _ | .div rs rt rd _ _ => " " ++ regName rd ++ ", " ++ regName rs ++ ", " ++ regName rt
  | .sll _ rt rd shamt _ | .srl _ rt rd shamt _ =>
    " " ++ regName rd ++ ", " ++ regName rt ++ ", #" ++ toString shamt.toNat
  | .addi rs rt imm => " " ++ regName rt ++ ", " ++ regName rs ++ ", #" ++ toString imm.toNat
  | .beq rs rt offset | .bne rs rt offset =>
    " " ++ regName rs ++ ", " ++ regName rt ++ ", " ++ toString offset.toNat
  | .lw rs rt offset | .lb rs rt offset | .sw rs rt offset =>
    " " ++ regName rt ++ ", " ++ toString offset.toNat ++ "(" ++ regName rs ++ ")"
  | .j address => " " ++ toString address.toNat
  | .nop _ => ""

/-- The whole statement. -/
def Instr.statementText (i : Instr) : String := i.mnemonic ++ i.operandText

end Sys2Proof
end

