-- ==== Sys2Proof/Safety.lean ====
section
/-! DEFINITION. The terms claims are written in: when an instruction's conditions hold, what a state with a result is,
the invariant of every step, the end of a run, and the padding a program carries against pipeline hazards. -/

namespace Sys2Proof.Machine

/-- R24: none of the register fields the instruction uses is the branch-flag register while that is reserved. -/
abbrev State.Usable (s : State) (fields : List RegIdx) : Prop :=
  s.params.flagPolicy = .reserved → s.params.flagReg ∉ fields

/-- R27, R195: under the policy by which reading an unwritten register is a fault, each of the registers an instruction
reads is the zero register or has been written since reset. -/
abbrev State.Readable (s : State) (read : List RegIdx) : Prop :=
  s.params.unwritten = .fault → ∀ r ∈ read, r = s.params.zeroReg ∨ s.written.get r.toFin = true

/-- R31: `pc + 1` is the next instruction's address (the 10-bit sum, 0 after 1023). -/
abbrev State.CanAdvance (s : State) : Prop := s.params.pcWrap = .fault → s.pc ≠ 1023

/-- The state in which a result stands in a register and `pc` is one higher, nothing else being touched: R12, R16, and
R23 where the register is the zero register. A register given a result counts as written since reset (R27). -/
def State.after (s : State) (rd : RegIdx) (v : Word) : State :=
  { s with
    regs := if rd = s.params.zeroReg then s.regs else s.regs.set rd.toNat v rd.isLt
    written := if rd = s.params.zeroReg then s.written else s.written.set rd.toNat true rd.isLt
    pc := s.pc + 1 }

/-- R56, R57: the byte address at which an access of `n` bytes at a 32-bit address takes place: that address where its
last byte is inside the 2 MB space; where it is not, the address modulo 2^21 under `OUT_OF_RANGE = wrap`. -/
abbrev State.Places (s : State) (ea : Word) (n : Nat) (a : Nat) : Prop :=
  (ea.toNat + n ≤ 2 ^ 21 ∧ a = ea.toNat) ∨
    (2 ^ 21 < ea.toNat + n ∧ s.params.outOfRange = .wrap ∧ a = ea.toNat % 2 ^ 21)

/-- R29, R181: the instruction sets `pc` to a target of its own: every J, a BEQ of equal registers, a BNE of different
ones. -/
def State.transfers (s : State) : Instr → Bool
  | .j _ => true
  | .beq rs rt _ => s.regsEqual rs rt
  | .bne rs rt _ => !s.regsEqual rs rt
  | _ => false

/-- The register fields an instruction uses, the destination among them (R24, R25). -/
def usedFields (i : Instr) : List RegIdx := sources i ++ (destination i).toList

/-- What every step keeps: both memories in canonical form within their spaces (R36, R37), the zero register's cell at
zero (R23), and the zero and branch-flag registers two different registers (R21). -/
abbrev State.Inv (s : State) : Prop :=
  s.dmem.wf = true ∧ s.imem.wf s.params.imemWords = true ∧ s.regs.get s.params.zeroReg.toFin = 0 ∧
    s.params.zeroReg ≠ s.params.flagReg

/-- `END_OF_RUN` (R7): whether the run has completed. By R228, where the instruction at `pc` is a J whose target is its
own address; or where `pc` is the address the launch names. -/
def State.completed (s : State) : Bool :=
  match s.params.endOfRun with
  | .selfJump => (s.instrWord s.pc).any fun w => opcodeField w == 0b01110 && w.extractLsb' 0 10 == s.pc
  | .reaches a => s.pc == a

/-! ### Hazards left to software (R230 to R236)

The machine runs the sequential meaning of every instruction, which asserts `HAZARD_NOPS = 0` (R232, log entry 8). A
claim that is to hold on a pipeline that needs padding takes these as premises, with the number in `params.hazardNops`
supplied by whoever has measured the hardware. -/

/-- R232, R234, R235: the second instruction reads a register, or may read a memory word, that the first writes. -/
def hazardous (zeroReg : RegIdx) (first second : Instr) : Bool :=
  (match destination first with
    | some r => r != zeroReg && (sources second).contains r
    | none => false) ||
  (match first, second with
    | .sw .., .lw .. | .sw .., .lb .. => true
    | _, _ => false)

/-- R232: in a list of executed instructions, at least `n` instructions lie between each producer and each consumer. -/
def hazardSpaced (zeroReg : RegIdx) (n : Nat) : List Instr → Bool
  | [] => true
  | i :: rest => (rest.take n).all (fun c => !hazardous zeroReg i c) && hazardSpaced zeroReg n rest

/-- R233: after every branch and every jump of the program but a J to itself, which ends the run, stand `HAZARD_NOPS`
NOPs. -/
def State.branchesPadded (s : State) : Bool :=
  (List.range 1024).all fun a =>
    match (s.instrWord (BitVec.ofNat 10 a)).map decode with
    | some (.ok (.beq ..)) | some (.ok (.bne ..)) => nopsFollow a
    | some (.ok (.j address)) => (jumpTarget address).toNat == a || nopsFollow a
    | _ => true
where
  /-- Whether the words at the `HAZARD_NOPS` instruction addresses after one are NOPs (R84). -/
  nopsFollow (a : Nat) : Bool :=
    (List.range s.params.hazardNops).all fun k =>
      (s.instrWord (BitVec.ofNat 10 (a + 1 + k))).any fun w => opcodeField w == 0b11111

/-- The instructions the next steps execute, until one does not answer a next state. -/
def executed : Nat → State → List Instr
  | 0, _ => []
  | k + 1, s =>
    match s.fetch, step s with
    | .ok i, .next t => i :: executed k t
    | _, _ => []

/-- R232: the program and its next `k` steps carry the padding of `HAZARD_NOPS`. -/
def State.padded (s : State) (k : Nat) : Bool :=
  s.branchesPadded && hazardSpaced s.params.zeroReg s.params.hazardNops (executed k s)

end Sys2Proof.Machine
end

