-- ==== Sys2Proof/Certificates/Slice0/Obligations.lean ====
section
/-! DEFINITION. The statements for the provers. Each names in its docstring the rules of spec/ it rests on; the values an
instruction reads from its registers are `State.operand`s (R11, R27: what the register holds, or a value drawn where the
policy asks for a draw), bytes of data memory are read through `cellRead`. A statement that holds for every state holds
for every setting of the parameters, since the state carries them. `State.afterReads` counts, in the model's own field
`draws`, the values that reading drew, and changes nothing else: where no read draws, it is the state itself. -/

open Sys2Proof Sys2Proof.Machine

/-! ### Encoding -/

/-- R81 to R84, R88: every instruction, with every operand and every unused field at every value, is read back from its
word; the canonical ones (R93) under the strict decoder too. -/
def Obligations.DecodeReadsBackEveryEncoding : Prop :=
  ∀ i : Instr, decode (encode i) = .ok i ∧ decodeWord false (encode i) = .ok i ∧
    (i.WellFormed = true → decodeWord true (encode i) = .ok i)

/-- R80 to R84: a word that decodes is the word of the instruction it decodes to: each word has one meaning and no bit of
it is dropped. -/
def Obligations.EncodeReproducesDecodedWord : Prop :=
  ∀ (w : Word) (i : Instr), decode w = .ok i → encode i = w

/-- R88: the operation code alone selects the instruction, by the map of R88; the fifteen codes 10000 to 11110 select
none. -/
def Obligations.OpcodeAloneSelectsInstruction : Prop :=
  ∀ w : Word,
    (match decode w with
      | .ok i => some i.mnemonic
      | .error _ => none) =
      List.lookup (w.extractLsb' 27 5).toNat
        [(0b00000, "ADD"), (0b00001, "SUB"), (0b00010, "AND"), (0b00011, "OR"), (0b00100, "NOR"), (0b00101, "SLL"),
         (0b00110, "SRL"), (0b00111, "MULT"), (0b01000, "DIV"), (0b01001, "BEQ"), (0b01010, "BNE"), (0b01011, "LW"),
         (0b01100, "LB"), (0b01101, "SW"), (0b01110, "J"), (0b01111, "ADDI"), (0b11111, "NOP")]

/-- R95: the decode masks, under both settings of `STRICT_DECODE`. -/
def Obligations.DecodeMatchesMasks : Prop :=
  ∀ row ∈ ([("ADD", 0b00000, 0xF8007FFF), ("SUB", 0b00001, 0xF8007FFF), ("AND", 0b00010, 0xF8007FFF),
      ("OR", 0b00011, 0xF8007FFF), ("NOR", 0b00100, 0xF8007FFF), ("SLL", 0b00101, 0xFF8003FF),
      ("SRL", 0b00110, 0xFF8003FF), ("MULT", 0b00111, 0xF8007FFF), ("DIV", 0b01000, 0xF8007FFF),
      ("BEQ", 0b01001, 0xF8000000), ("BNE", 0b01010, 0xF8000000), ("LW", 0b01011, 0xF8000000),
      ("LB", 0b01100, 0xF8000000), ("SW", 0b01101, 0xF8000000), ("J", 0b01110, 0xF8000000),
      ("ADDI", 0b01111, 0xF8000000), ("NOP", 0b11111, 0xF8000000)] : List (String × Word × Word)),
    ∀ w : Word,
      ((∃ i, decodeWord false w = .ok i ∧ i.mnemonic = row.1) ↔ w &&& 0xF8000000 = row.2.1 <<< 27) ∧
      ((∃ i, decodeWord true w = .ok i ∧ i.mnemonic = row.1) ↔ w &&& row.2.2 = row.2.1 <<< 27)

/-- Words written out from the encodings of spec/30_encoding.md (the source's own examples, spec/95_test_vectors.md
section 1.3) decode to the instructions they stand for. -/
def Obligations.WrittenOutWordsDecode : Prop :=
  decode 0x03CA8000 = .ok (.add 7 9 5 0 0) ∧ decode 0x283A8800 = .ok (.sll 0 7 5 2 0) ∧
    decode 0x43CA8000 = .ok (.div 7 9 5 0 0) ∧ decode 0x7BA80009 = .ok (.addi 7 5 9) ∧
    decode 0x49180064 = .ok (.beq 2 3 100) ∧ decode 0x59900064 = .ok (.lw 3 2 100) ∧
    decode 0x69900064 = .ok (.sw 3 2 100) ∧ decode 0x70000003 = .ok (.j 3) ∧ decode 0xF8000000 = .ok (.nop 0)

/-- R93: the canonical form has every unused field zero, a canonical instruction is its own canonical form, and the
unused fields never matter to what an instruction does (R94 b to d, R115). -/
def Obligations.UnusedFieldsNeverMatter : Prop :=
  ∀ (i : Instr) (s : State), i.canonical.WellFormed = true ∧ (i.WellFormed = true ↔ i.canonical = i) ∧
    exec i.canonical s = exec i s

/-! ### The step -/

/-- R16: where the word at `pc` decodes, a step is the instruction's own rule applied to the same state, and nothing
else: `pc` is set by the instruction. -/
def Obligations.StepRunsDecodedInstruction : Prop :=
  ∀ (s : State) (w : Word) (i : Instr), s.instrWord s.pc = some w →
    decodeWord s.params.strictDecode w = .ok i → step s = exec i s

/-- R36, R58: the word at an instruction address below `IMEM_WORDS` is, under `IMEM_MODEL = separate`, the word of
instruction memory, whatever stands in data memory; under `unified` (log entry 18: what the spec says of that setting,
which it does not adopt) the big-endian word of data bytes `4a` to `4a + 3`, where they have values. At and above
`IMEM_WORDS` there is none. -/
def Obligations.InstructionWordFollowsImemModel : Prop :=
  ∀ (s : State) (a : PcAddr),
    (a.toNat < s.params.imemWords → s.params.imemModel = .separate → s.instrWord a = cellRead s.imem a.toNat) ∧
    (a.toNat < s.params.imemWords → s.params.imemModel = .unified → ∀ w : Word, s.instrWord a = some w ↔
      ∃ b0 b1 b2 b3 : Byte, cellRead s.dmem (4 * a.toNat) = some b0 ∧ cellRead s.dmem (4 * a.toNat + 1) = some b1 ∧
        cellRead s.dmem (4 * a.toNat + 2) = some b2 ∧ cellRead s.dmem (4 * a.toNat + 3) = some b3 ∧
        w = b0 ++ b1 ++ b2 ++ b3) ∧
    (s.params.imemWords ≤ a.toNat → s.instrWord a = none)

/-- R192: `IllegalOpcode` is reported exactly where the word at `pc` has an unassigned operation code or was left
undefined by the launch, at any `pc`. -/
def Obligations.IllegalOpcodeExactly : Prop :=
  ∀ (s : State) (x : Option Word), step s = .fault (.illegalOpcode x) ↔
    (x = none ∧ s.instrWord s.pc = none) ∨
      ∃ w : Word, x = some w ∧ s.instrWord s.pc = some w ∧
        0b10000 ≤ (w.extractLsb' 27 5).toNat ∧ (w.extractLsb' 27 5).toNat ≤ 0b11110

/-- R193: `NonCanonicalEncoding` is reported exactly under `STRICT_DECODE = true` for a word of format R with a non-zero
field that the instruction does not use: bits 14 to 0 of the three-register instructions, RS and FUNCTION of the
shifts. -/
def Obligations.NonCanonicalExactlyWhenStrict : Prop :=
  ∀ (s : State) (w : Word), step s = .fault (.nonCanonicalEncoding w) ↔
    s.params.strictDecode = true ∧ s.instrWord s.pc = some w ∧
      (((w.extractLsb' 27 5).toNat ∈ [0, 1, 2, 3, 4, 7, 8] ∧ (w.extractLsb' 10 5 ≠ 0 ∨ w.extractLsb' 0 10 ≠ 0)) ∨
        ((w.extractLsb' 27 5).toNat ∈ [5, 6] ∧ (w.extractLsb' 23 4 ≠ 0 ∨ w.extractLsb' 0 10 ≠ 0)))

/-! ### Results of the register instructions -/

/-- R110, R115: ADD writes the sum modulo 2^32, advances `pc` and changes nothing else. -/
def Obligations.AddWritesSum : Prop :=
  ∀ (s : State) (rs rt rd : RegIdx) (shamt : Shamt) (funct : Funct), s.Usable [rs, rt, rd] → s.Readable [rs, rt] →
    s.CanAdvance →
    exec (.add rs rt rd shamt funct) s =
      .next ((s.afterReads [rs, rt]).after rd (BitVec.ofNat 32 ((s.operand [] rs).toNat + (s.operand [rs] rt).toNat)))

/-- R111, R115: SUB writes RS minus RT modulo 2^32, advances `pc` and changes nothing else. -/
def Obligations.SubWritesDifference : Prop :=
  ∀ (s : State) (rs rt rd : RegIdx) (shamt : Shamt) (funct : Funct), s.Usable [rs, rt, rd] → s.Readable [rs, rt] →
    s.CanAdvance →
    exec (.sub rs rt rd shamt funct) s =
      .next ((s.afterReads [rs, rt]).after rd (BitVec.ofInt 32 ((s.operand [] rs).toNat - (s.operand [rs] rt).toNat)))

/-- R112 to R114, R115: AND, OR and NOR write, in each of the 32 bit positions, the and, the inclusive or and the
complement of the or of the two sources' bits, advance `pc` and change nothing else. -/
def Obligations.LogicWritesBitwise : Prop :=
  ∀ (s : State) (rs rt rd : RegIdx) (shamt : Shamt) (funct : Funct), s.Usable [rs, rt, rd] → s.Readable [rs, rt] →
    s.CanAdvance →
    (∃ v : Word, exec (.and rs rt rd shamt funct) s = .next ((s.afterReads [rs, rt]).after rd v) ∧
      ∀ k < 32, v.getLsbD k = ((s.operand [] rs).getLsbD k && (s.operand [rs] rt).getLsbD k)) ∧
    (∃ v : Word, exec (.or rs rt rd shamt funct) s = .next ((s.afterReads [rs, rt]).after rd v) ∧
      ∀ k < 32, v.getLsbD k = ((s.operand [] rs).getLsbD k || (s.operand [rs] rt).getLsbD k)) ∧
    (∃ v : Word, exec (.nor rs rt rd shamt funct) s = .next ((s.afterReads [rs, rt]).after rd v) ∧
      ∀ k < 32, v.getLsbD k = !((s.operand [] rs).getLsbD k || (s.operand [rs] rt).getLsbD k))

/-- R120, R121: SLL writes `RT * 2^SHAMT` modulo 2^32 and SRL the integer part of `RT / 2^SHAMT`; RS is no register
access, so only RT and RD need be usable. -/
def Obligations.ShiftsWriteProductAndQuotient : Prop :=
  ∀ (s : State) (rs rt rd : RegIdx) (shamt : Shamt) (funct : Funct), s.Usable [rt, rd] → s.Readable [rt] →
    s.CanAdvance →
    exec (.sll rs rt rd shamt funct) s =
      .next ((s.afterReads [rt]).after rd (BitVec.ofNat 32 ((s.operand [] rt).toNat * 2 ^ shamt.toNat))) ∧
    exec (.srl rs rt rd shamt funct) s =
      .next ((s.afterReads [rt]).after rd (BitVec.ofNat 32 ((s.operand [] rt).toNat / 2 ^ shamt.toNat)))

/-- R130: MULT writes the low 32 bits of the product, the same whether the operands are read as unsigned or as signed,
advances `pc` and changes nothing else. -/
def Obligations.MultWritesLowProduct : Prop :=
  ∀ (s : State) (rs rt rd : RegIdx) (shamt : Shamt) (funct : Funct), s.Usable [rs, rt, rd] → s.Readable [rs, rt] →
    s.CanAdvance →
    ∃ v : Word, exec (.mult rs rt rd shamt funct) s = .next ((s.afterReads [rs, rt]).after rd v) ∧
      v = BitVec.ofNat 32 ((s.operand [] rs).toNat * (s.operand [rs] rt).toNat) ∧
      v = BitVec.ofInt 32 ((s.operand [] rs).toInt * (s.operand [rs] rt).toInt)

/-- R131: on the agreement domain DIV writes the integer quotient, which unsigned division and signed division toward
zero share, advances `pc` and changes nothing else. -/
def Obligations.DivWritesQuotientOnAgreementDomain : Prop :=
  ∀ (s : State) (rs rt rd : RegIdx) (shamt : Shamt) (funct : Funct), s.Usable [rs, rt, rd] → s.Readable [rs, rt] →
    s.CanAdvance →
    s.operand [rs] rt ≠ 0 → (s.operand [] rs).toNat < 2 ^ 31 → (s.operand [rs] rt).toNat < 2 ^ 31 →
    ∃ v : Word, exec (.div rs rt rd shamt funct) s = .next ((s.afterReads [rs, rt]).after rd v) ∧
      v = BitVec.ofNat 32 ((s.operand [] rs).toNat / (s.operand [rs] rt).toNat) ∧
      v = BitVec.ofInt 32 ((s.operand [] rs).toInt.tdiv (s.operand [rs] rt).toInt)

/-- R131, R132: outside the agreement domain and for a divisor that is not zero, DIV writes `DIV_FN` of the operands
where it is supplied (log entry 3: the open function, of which nothing is known) and is `DivideUndecided` where it is
not. -/
def Obligations.DivOutsideAgreementDomain : Prop :=
  ∀ (s : State) (rs rt rd : RegIdx) (shamt : Shamt) (funct : Funct), s.Usable [rs, rt, rd] → s.Readable [rs, rt] →
    s.operand [rs] rt ≠ 0 → ¬((s.operand [] rs).toNat < 2 ^ 31 ∧ (s.operand [rs] rt).toNat < 2 ^ 31) →
    (s.params.divFn = .supplied → s.CanAdvance →
      exec (.div rs rt rd shamt funct) s =
        .next ((s.afterReads [rs, rt]).after rd (Config.divFn (s.operand [] rs) (s.operand [rs] rt)))) ∧
    (s.params.divFn = .unsupplied →
      exec (.div rs rt rd shamt funct) s = .fault (.divideUndecided (s.operand [] rs) (s.operand [rs] rt)))

/-- R133: division by zero is `DivideByZero` under `DIV_ZERO = fault`; under `any value` the destination receives the
next free value after those its reads drew, about which nothing is known, the draw is counted so that the next one is afresh, and `pc` advances.
The clause under `any value` holds for every value of the open constant. -/
def Obligations.DivByZeroFollowsPolicy : Prop :=
  ∀ (s : State) (rs rt rd : RegIdx) (shamt : Shamt) (funct : Funct), s.Usable [rs, rt, rd] → s.Readable [rs, rt] →
    s.operand [rs] rt = 0 →
    (s.params.divZero = .fault → exec (.div rs rt rd shamt funct) s = .fault .divideByZero) ∧
    (s.params.divZero = .anyValue → s.CanAdvance →
      exec (.div rs rt rd shamt funct) s =
        .next (({ s with draws := s.draws + s.drawsFor [rs, rt] + 1 } : State).after rd
          (Config.freeWord (s.draws + s.drawsFor [rs, rt]))))

/-- R140: ADDI writes RS plus the immediate modulo 2^32, the immediate read as unsigned under `IMM_EXT = zero` and as
two's complement under `sign`; the destination is the RT field; `pc` advances and nothing else changes. -/
def Obligations.AddiWritesSum : Prop :=
  ∀ (s : State) (rs rt : RegIdx) (imm : Imm19), s.Usable [rs, rt] → s.Readable [rs] → s.CanAdvance →
    (s.params.immExt = .zero → exec (.addi rs rt imm) s =
      .next ((s.afterReads [rs]).after rt (BitVec.ofNat 32 ((s.operand [] rs).toNat + imm.toNat)))) ∧
    (s.params.immExt = .sign → exec (.addi rs rt imm) s =
      .next ((s.afterReads [rs]).after rt (BitVec.ofInt 32 ((s.operand [] rs).toNat + imm.toInt))))

/-- R13: `ext19` and `extb` under each setting, and the values on which the settings agree. -/
def Obligations.ExtensionsWiden : Prop :=
  ∀ (s : State) (imm : Imm19) (b : Byte),
    (s.params.immExt = .zero → (s.ext19 imm).toNat = imm.toNat) ∧
    (s.params.immExt = .sign → (s.ext19 imm).toInt = imm.toInt) ∧
    (s.params.lbExt = .zero → (s.extb b).toNat = b.toNat) ∧
    (s.params.lbExt = .sign → (s.extb b).toInt = b.toInt) ∧
    (imm.toNat < 2 ^ 18 → (s.ext19 imm).toNat = imm.toNat) ∧
    (b.toNat < 2 ^ 7 → (s.extb b).toNat = b.toNat)

/-! ### Control flow -/

/-- R90 (with R150, R151): BEQ and BNE go to the low 10 bits of the offset field, whatever its other bits, where the
registers are equal, or different; they write nothing but `pc`. -/
def Obligations.TakenBranchesGoToTarget : Prop :=
  ∀ (s : State) (rs rt : RegIdx) (offset : Imm19), s.Usable [rs, rt] → s.Readable [rs, rt] →
    (s.operand [] rs = s.operand [rs] rt →
      exec (.beq rs rt offset) s = .next { s.afterReads [rs, rt] with pc := offset.extractLsb' 0 10 }) ∧
    (s.operand [] rs ≠ s.operand [rs] rt →
      exec (.bne rs rt offset) s = .next { s.afterReads [rs, rt] with pc := offset.extractLsb' 0 10 })

/-- R150, R151: a branch that is not taken advances `pc` and changes nothing else. -/
def Obligations.UntakenBranchesAdvance : Prop :=
  ∀ (s : State) (rs rt : RegIdx) (offset : Imm19), s.Usable [rs, rt] → s.Readable [rs, rt] → s.CanAdvance →
    (s.operand [] rs ≠ s.operand [rs] rt →
      exec (.beq rs rt offset) s = .next { s.afterReads [rs, rt] with pc := s.pc + 1 }) ∧
    (s.operand [] rs = s.operand [rs] rt →
      exec (.bne rs rt offset) s = .next { s.afterReads [rs, rt] with pc := s.pc + 1 })

/-- R91 (with R180): J sets `pc` to the low 10 bits of its address field, whatever the other bits and whatever the
state, and changes nothing else. -/
def Obligations.JumpGoesToTarget : Prop :=
  ∀ (s : State) (address : Addr27), exec (.j address) s = .next { s with pc := address.extractLsb' 0 10 }

/-- R185: NOP, whatever its low 27 bits, advances `pc` and changes nothing else. -/
def Obligations.NopOnlyAdvances : Prop :=
  ∀ (s : State) (low : Addr27), s.CanAdvance → exec (.nop low) s = .next { s with pc := s.pc + 1 }

/-- R29: how each instruction advances `pc`. -/
def Obligations.ProgramCounterFollowsInstruction : Prop :=
  ∀ (i : Instr) (s t : State), exec i s = .next t →
    match i with
    | .j address => t.pc = address.extractLsb' 0 10
    | .beq rs rt offset =>
      t.pc = if s.operand [] rs = s.operand [rs] rt then offset.extractLsb' 0 10 else s.pc + 1
    | .bne rs rt offset =>
      t.pc = if s.operand [] rs ≠ s.operand [rs] rt then offset.extractLsb' 0 10 else s.pc + 1
    | _ => t.pc = s.pc + 1

/-- R31: at `pc` = 1023 an instruction that is no taken branch and no jump goes on at 0 under `PC_WRAP = wrap`; under
`fault`, where it would have gone on, it is `PcOverflow`. -/
def Obligations.ProgramCounterAtItsUpperEnd : Prop :=
  ∀ (i : Instr) (s : State), s.pc = 1023 → s.transfers i = false →
    (s.params.pcWrap = .wrap → ∀ t, exec i s = .next t → t.pc = 0) ∧
    (s.params.pcWrap = .fault →
      ∀ t, exec i { s with params := { s.params with pcWrap := .wrap } } = .next t → exec i s = .fault .pcOverflow)

/-- R200: `PcOverflow` is reported only under `PC_WRAP = fault`, at `pc` = 1023, by an instruction that does not branch
or jump; and such an instruction never answers a next state there. -/
def Obligations.PcOverflowOnlyAtUpperEnd : Prop :=
  ∀ (i : Instr) (s : State),
    (exec i s = .fault .pcOverflow → s.params.pcWrap = .fault ∧ s.pc = 1023 ∧ s.transfers i = false) ∧
    (s.params.pcWrap = .fault → s.pc = 1023 → s.transfers i = false → ∀ t, exec i s ≠ .next t)

/-- R228: where a run ends at a J to itself (`END_OF_RUN`, its default), executing the J to itself any number of times does not change the state. -/
def Obligations.CompletedRunStays : Prop :=
  ∀ (s : State) (n : Nat), s.params.endOfRun = .selfJump → s.completed = true →
    Sys2Proof.core.run n s = .next s

/-! ### Loads and stores -/

/-- R160: the effective address is the base plus the widened offset, modulo 2^32, not scaled. -/
def Obligations.EffectiveAddressIsBasePlusOffset : Prop :=
  ∀ (s : State) (rs : RegIdx) (offset : Imm19),
    (s.params.immExt = .zero → (s.effAddr rs offset).toNat = ((s.operand [] rs).toNat + offset.toNat) % 2 ^ 32) ∧
    (s.params.immExt = .sign →
      ((s.effAddr rs offset).toNat : Int) = ((s.operand [] rs).toNat + offset.toInt) % 2 ^ 32)

/-- R161, R52, R56: LW writes to RT the four bytes at the place of the effective address, the lowest one on the left,
advances `pc` and changes nothing else. -/
def Obligations.LoadWordWritesFourBytes : Prop :=
  ∀ (s : State) (rs rt : RegIdx) (offset : Imm19) (a : Nat) (b0 b1 b2 b3 : Byte),
    s.Usable [rs, rt] → s.Readable [rs] → s.CanAdvance → s.Places (s.effAddr rs offset) 4 a → a % 4 = 0 →
    cellRead s.dmem a = some b0 → cellRead s.dmem (a + 1) = some b1 → cellRead s.dmem (a + 2) = some b2 →
    cellRead s.dmem (a + 3) = some b3 →
    exec (.lw rs rt offset) s = .next ((s.afterReads [rs]).after rt (b0 ++ b1 ++ b2 ++ b3))

/-- R162, R56: LB writes to RT the byte at the place of the effective address, aligned or not, widened by `LB_EXT`,
advances `pc` and changes nothing else. -/
def Obligations.LoadByteWritesWidenedByte : Prop :=
  ∀ (s : State) (rs rt : RegIdx) (offset : Imm19) (a : Nat) (b : Byte),
    s.Usable [rs, rt] → s.Readable [rs] → s.CanAdvance → s.Places (s.effAddr rs offset) 1 a → cellRead s.dmem a = some b →
    (s.params.lbExt = .zero →
      exec (.lb rs rt offset) s = .next ((s.afterReads [rs]).after rt (BitVec.ofNat 32 b.toNat))) ∧
    (s.params.lbExt = .sign →
      exec (.lb rs rt offset) s = .next ((s.afterReads [rs]).after rt (BitVec.ofInt 32 b.toInt)))

/-- R163, R57: SW completes at an aligned place of its effective address: the four bytes there are RT's from its high
end, every other byte reads as before, `pc` advances, and every other field is as it was. -/
def Obligations.StoreWordWritesFourBytes : Prop :=
  ∀ (s : State) (rs rt : RegIdx) (offset : Imm19) (a : Nat),
    s.Usable [rs, rt] → s.Readable [rs, rt] → s.CanAdvance → s.Places (s.effAddr rs offset) 4 a → a % 4 = 0 →
    ∃ t, exec (.sw rs rt offset) s = .next t ∧ t = { s.afterReads [rs, rt] with dmem := t.dmem, pc := s.pc + 1 } ∧
      cellRead t.dmem a = some ((s.operand [rs] rt).extractLsb' 24 8) ∧
      cellRead t.dmem (a + 1) = some ((s.operand [rs] rt).extractLsb' 16 8) ∧
      cellRead t.dmem (a + 2) = some ((s.operand [rs] rt).extractLsb' 8 8) ∧
      cellRead t.dmem (a + 3) = some ((s.operand [rs] rt).extractLsb' 0 8) ∧
      ∀ b, b < a ∨ a + 4 ≤ b → cellRead t.dmem b = cellRead s.dmem b

/-- R54: after a word is stored, a byte load at the address plus k returns its bits 31-8k to 24-8k. -/
def Obligations.ByteLoadsSeeStoredWordBigEndian : Prop :=
  ∀ (s t : State) (ea v : Word), s.storeWord ea v = .ok t →
    ∀ k < 4, t.loadByte (ea + BitVec.ofNat 32 k) = .ok (v.extractLsb' (24 - 8 * k) 8)

/-- R52: the word at a byte address is its four bytes, the byte at the lowest address bits 31 to 24 and the byte at
a + 3 bits 7 to 0. -/
def Obligations.WordInMemoryIsBigEndian : Prop :=
  ∀ (m : Memory) (a : Nat) (b0 b1 b2 b3 : Byte), a % 4 = 0 →
    cellRead m a = some b0 → cellRead m (a + 1) = some b1 → cellRead m (a + 2) = some b2 →
    cellRead m (a + 3) = some b3 →
    ∃ v : Word, m.wordAt a = .ok v ∧ v = b0 ++ b1 ++ b2 ++ b3 ∧
      v.extractLsb' 24 8 = b0 ∧ v.extractLsb' 16 8 = b1 ∧ v.extractLsb' 8 8 = b2 ∧ v.extractLsb' 0 8 = b3

/-- R68 (with R161, R163): an LW from the place where an SW has just stored, in the state that SW left, through whatever
base register and offset that place is named, goes on with the stored word in its destination. -/
def Obligations.LoadAfterStoreReturnsStoredWord : Prop :=
  ∀ (s t : State) (rs rt rs' rd : RegIdx) (offset offset' : Imm19) (a : Nat), exec (.sw rs rt offset) s = .next t →
    s.Places (s.effAddr rs offset) 4 a → t.Places (t.effAddr rs' offset') 4 a →
    t.Usable [rs', rd] → t.Readable [rs'] → t.CanAdvance →
    exec (.lw rs' rd offset') t = .next ((t.afterReads [rs']).after rd (s.operand [rs] rt))

/-- R196: `AddressOutOfRange` is reported exactly by a load or store with usable and readable fields whose effective address has its
last byte at or above 2^21, under `OUT_OF_RANGE = fault`. -/
def Obligations.AddressOutOfRangeExactly : Prop :=
  ∀ (i : Instr) (s : State) (addr : Word), exec i s = .fault (.addressOutOfRange addr) ↔
    s.Usable (usedFields i) ∧ s.Readable (sources i) ∧ s.params.outOfRange = .fault ∧
      ∃ (rs rt : RegIdx) (offset : Imm19), addr = s.effAddr rs offset ∧
        (((i = .lw rs rt offset ∨ i = .sw rs rt offset) ∧ 2 ^ 21 < addr.toNat + 4) ∨
          (i = .lb rs rt offset ∧ 2 ^ 21 < addr.toNat + 1))

/-- R197: `MisalignedAccess` is reported exactly by LW and SW with usable and readable fields whose access is in range and whose
address is not a multiple of 4; never by LB. -/
def Obligations.MisalignedAccessExactly : Prop :=
  ∀ (i : Instr) (s : State) (addr : Word), exec i s = .fault (.misalignedAccess addr) ↔
    s.Usable (usedFields i) ∧ s.Readable (sources i) ∧
      ∃ (rs rt : RegIdx) (offset : Imm19) (a : Nat), (i = .lw rs rt offset ∨ i = .sw rs rt offset) ∧
        s.Places (s.effAddr rs offset) 4 a ∧ a % 4 ≠ 0 ∧ addr = BitVec.ofNat 32 a

/-- R212: `UndefinedMemory` is reported exactly by LW and LB, with the lowest byte of the access that has no value;
never by SW, and never where every byte of the space has one. -/
def Obligations.UndefinedMemoryExactly : Prop :=
  (∀ (i : Instr) (s : State) (addr : Word), exec i s = .fault (.undefinedMemory addr) ↔
    s.Usable (usedFields i) ∧ s.Readable (sources i) ∧
      ∃ (rs rt : RegIdx) (offset : Imm19) (a k : Nat),
        ((i = .lw rs rt offset ∧ s.Places (s.effAddr rs offset) 4 a ∧ a % 4 = 0 ∧ k < 4) ∨
          (i = .lb rs rt offset ∧ s.Places (s.effAddr rs offset) 1 a ∧ k = 0)) ∧
        cellRead s.dmem (a + k) = none ∧ (∀ j < k, cellRead s.dmem (a + j) ≠ none) ∧
        addr = BitVec.ofNat 32 (a + k)) ∧
  ∀ (i : Instr) (s : State) (addr : Word), (∀ a < 2 ^ 21, cellRead s.dmem a ≠ none) →
    exec i s ≠ .fault (.undefinedMemory addr)

/-! ### The other faults -/

/-- R194: `ReservedRegister` is reported exactly under `FLAG_REG_POLICY = reserved` by an instruction that uses
`FLAG_REG` in a register field, the destination among them. -/
def Obligations.ReservedRegisterExactly : Prop :=
  ∀ (i : Instr) (s : State) (r : RegIdx), exec i s = .fault (.reservedRegister r) ↔
    s.params.flagPolicy = .reserved ∧ r = s.params.flagReg ∧ r ∈ usedFields i

/-- Where the policy for unwritten registers is the fault, `UnwrittenRegister` is reported exactly by an instruction
that reads a register other than the zero register that nothing has written since reset (R27, R195), where no used field
is reserved, and names the first such register, RS before RT (R201). R195 has no condition on a policy. The policies
under which there is no fault are the free draw that R27 allows instead (UnwrittenReadsDrawAfresh), and the model's own
choice, by which the read answers the reset value (log entry 1). -/
def Obligations.UnwrittenRegisterExactly : Prop :=
  ∀ (i : Instr) (s : State) (r : RegIdx), exec i s = .fault (.unwrittenRegister r) ↔
    s.params.unwritten = .fault ∧ s.Usable (usedFields i) ∧
      ∃ before rest : List RegIdx, sources i = before ++ r :: rest ∧
        (∀ q ∈ before, q = s.params.zeroReg ∨ s.written.get q.toFin = true) ∧
        r ≠ s.params.zeroReg ∧ s.written.get r.toFin = false

/-- R27, its second sentence ("A model may instead treat the value as a free draw taken afresh at each read"), as the
policy `anyValue`: no instruction stops at an unwritten register, every operand of an unwritten register is a free value
of its own, two reads of one register by one instruction among them, and every other operand is what the register holds.
Which setting a run takes is the launch's choice (log entry 1). -/
def Obligations.UnwrittenReadsDrawAfresh : Prop :=
  (∀ (s : State) (before : List RegIdx) (r : RegIdx),
    (s.params.unwritten = .anyValue → r ≠ s.params.zeroReg → s.written.get r.toFin = false →
      s.operand before r = Config.freeWord (s.draws + s.drawsFor before) ∧
      s.drawsFor (before ++ [r]) = s.drawsFor before + 1) ∧
    (s.params.unwritten ≠ .anyValue ∨ r = s.params.zeroReg ∨ s.written.get r.toFin = true →
      s.operand before r = s.readReg r ∧ s.drawsFor (before ++ [r]) = s.drawsFor before)) ∧
  (∀ (i : Instr) (s : State) (r : RegIdx), s.params.unwritten = .anyValue →
    exec i s ≠ .fault (.unwrittenRegister r)) ∧
  ∀ (s : State) (rs rt rd : RegIdx) (shamt : Shamt) (funct : Funct), s.params.unwritten = .anyValue →
    s.Usable [rs, rt, rd] → s.CanAdvance → rs ≠ s.params.zeroReg → rt ≠ s.params.zeroReg →
    s.written.get rs.toFin = false → s.written.get rt.toFin = false →
    exec (.add rs rt rd shamt funct) s =
      .next (({ s with draws := s.draws + 2 } : State).after rd
        (Config.freeWord s.draws + Config.freeWord (s.draws + 1)))

/-- R27, R223: a register counts as written from the first instruction on that goes on with it as destination, and no
other instruction changes whether a register counts as written; none is written at launch. -/
def Obligations.WrittenRegistersAreThoseGivenResults : Prop :=
  (∀ (p : Params) (imem : InstrMemory) (dmem : Memory) (r : RegIdx),
    (State.launch p imem dmem).written.get r.toFin = false) ∧
  ∀ (i : Instr) (s t : State), exec i s = .next t → ∀ r : RegIdx, r ≠ s.params.zeroReg →
    (t.written.get r.toFin = true ↔ destination i = some r ∨ s.written.get r.toFin = true)

/-- R198, R199: the two faults of DIV, each exactly where its rule says. -/
def Obligations.DivideFaultsExactly : Prop :=
  ∀ (i : Instr) (s : State),
    (exec i s = .fault .divideByZero ↔ s.Usable (usedFields i) ∧ s.Readable (sources i) ∧
      s.params.divZero = .fault ∧
      ∃ rs rt rd shamt funct, i = .div rs rt rd shamt funct ∧ s.operand [rs] rt = 0) ∧
    ∀ a b : Word, exec i s = .fault (.divideUndecided a b) ↔
      s.Usable (usedFields i) ∧ s.Readable (sources i) ∧ s.params.divFn = .unsupplied ∧
        ∃ rs rt rd shamt funct, i = .div rs rt rd shamt funct ∧ a = s.operand [] rs ∧ b = s.operand [rs] rt ∧ b ≠ 0 ∧
          (a.msb = true ∨ b.msb = true)

/-- R204: every one of the 17 instructions is always available: no state refuses one, and none is an instruction of
another mode. -/
def Obligations.EveryInstructionAvailable : Prop :=
  ∀ (i : Instr) (s : State) (r : Refusal), exec i s ≠ .refused r ∧ step s ≠ .refused r

/-! ### Frames and invariants -/

/-- R25, R26: where an instruction goes on, every register but its destination holds what it held; BEQ, BNE, SW, J and
NOP have none. -/
def Obligations.OnlyDestinationRegisterChanges : Prop :=
  ∀ (i : Instr) (s t : State), exec i s = .next t →
    ∀ r : RegIdx, destination i ≠ some r → t.regs.get r.toFin = s.regs.get r.toFin

/-- R25: what an instruction does depends on no register but its sources. Of two states that differ only in registers
it does not read, in their values and in whether they were written since reset: where it faults in the one it faults in
the other, with the same fault; where it goes on in the one it goes on in the other, with the same result in its
destination, every other register keeping what it held, and every other field alike. -/
def Obligations.OutcomeDependsOnSourcesOnly : Prop :=
  ∀ (i : Instr) (s s' : State), s' = { s with regs := s'.regs, written := s'.written } →
    (∀ r ∈ sources i, s'.readReg r = s.readReg r ∧ s'.written.get r.toFin = s.written.get r.toFin) →
    (∀ f, exec i s = .fault f → exec i s' = .fault f) ∧
    ∀ t, exec i s = .next t →
      ∃ t', exec i s' = .next t' ∧ t' = { t with regs := t'.regs, written := t'.written } ∧
        (∀ r, destination i = some r → t'.readReg r = t.readReg r) ∧
        ∀ r, destination i ≠ some r → t'.readReg r = s'.readReg r ∧ t'.written.get r.toFin = s'.written.get r.toFin

/-- R62, R164: no instruction but SW changes a byte of data memory. -/
def Obligations.OnlyStoreWordChangesMemory : Prop :=
  ∀ (i : Instr) (s t : State), exec i s = .next t → (∀ rs rt offset, i ≠ .sw rs rt offset) → t.dmem = s.dmem

/-- R36, R40, R71: no step changes the field of instruction memory nor the parameters of the run; so under
`IMEM_MODEL = separate` every instruction address holds the word it held, an SW or not. -/
def Obligations.StepKeepsProgramAndParameters : Prop :=
  ∀ s t : State, step s = .next t → t.imem = s.imem ∧ t.params = s.params ∧
    (s.params.imemModel = .separate → ∀ a : PcAddr, t.instrWord a = s.instrWord a)

/-- R133 (log entry 2), R27 (log entry 1): the free values an instruction draws are one for each read of an unwritten
register, where the policy asks for a draw there, and one more for a division by zero, which goes on only under
`DIV_ZERO = any value`. -/
def Obligations.FreeValuesDrawnExactly : Prop :=
  ∀ (i : Instr) (s t : State), exec i s = .next t →
    ((∃ rs rt rd shamt funct, i = .div rs rt rd shamt funct ∧ s.operand [rs] rt = 0) →
      s.params.divZero = .anyValue ∧ t.draws = s.draws + s.drawsFor (sources i) + 1) ∧
    (¬(∃ rs rt rd shamt funct, i = .div rs rt rd shamt funct ∧ s.operand [rs] rt = 0) →
      t.draws = s.draws + s.drawsFor (sources i)) ∧
    (s.params.unwritten ≠ .anyValue → s.drawsFor (sources i) = 0)

/-- R42: the zero register reads 0 after reset, as at every other time. -/
def Obligations.ZeroRegisterReadsZero : Prop :=
  State.reset.readReg State.reset.params.zeroReg = 0 ∧ ∀ s : State, s.readReg s.params.zeroReg = 0

/-- R23: an instruction whose destination is the zero register, where it goes on, changes `pc` alone (and, the model's
own field, the count of draws). That the write is discarded is R23's own choice (log entry 9). -/
def Obligations.WriteToZeroRegisterIsDiscarded : Prop :=
  ∀ (i : Instr) (s t : State), destination i = some s.params.zeroReg → exec i s = .next t →
    t = { s with pc := s.pc + 1, draws := t.draws }

/-- R21, R23, R36, R37: every step from a state with the invariant leaves one: both memories in canonical form inside
their spaces, the zero register's cell at zero, the two special registers distinct. -/
def Obligations.StepKeepsInvariant : Prop :=
  ∀ s t : State, s.Inv → step s = .next t → t.Inv

/-- The state after reset has the invariant. That the zero register's cell holds 0 there is the model's choice, as every
register's reset value is (log entry 1); reads of it answer 0 in any case. -/
def Obligations.ResetHasInvariant : Prop := State.reset.Inv

/-- R41: `pc` after reset is `RESET_PC`, by default 0. -/
def Obligations.ResetStartsAtResetPc : Prop :=
  (∀ (p : Params) (imem : InstrMemory) (dmem : Memory), (State.launch p imem dmem).pc = p.resetPc) ∧
    specDefaults.resetPc = 0 ∧ State.reset.pc = 0

/-- R7: each parameter has the default that rule gives it, and a launch that is given no argument takes them. -/
def Obligations.LaunchTakesSpecDefaults : Prop :=
  State.launch.params = specDefaults ∧ specDefaults.zeroReg = 0 ∧ specDefaults.flagReg = 15 ∧
    specDefaults.flagPolicy = .reserved ∧ specDefaults.unwritten = .fault ∧ specDefaults.immExt = .zero ∧
    specDefaults.lbExt = .zero ∧ specDefaults.divZero = .fault ∧ specDefaults.strictDecode = false ∧
    specDefaults.imemModel = .separate ∧ specDefaults.imemWords = 2 ^ 10 ∧ specDefaults.outOfRange = .fault ∧
    specDefaults.pcWrap = .wrap ∧ specDefaults.resetPc = 0 ∧ specDefaults.endOfRun = .selfJump
end

