-- ==== Sys2Proof/Laws/Decode.lean ====
section
/-! SUPPORT. The fields of an encoded word, format by format, and what decoding a word can answer. -/

namespace Sys2Proof

/-- Bits read back from the lower part of two words put side by side. -/
theorem append_low {m n : Nat} (x : BitVec m) (y : BitVec n) : (x ++ y).extractLsb' 0 n = y := by
  apply BitVec.eq_of_getLsbD_eq
  intro k hk
  simp [BitVec.getLsbD_append, hk]

/-- Bits read back from the upper part of two words put side by side. -/
theorem append_high {m n : Nat} (x : BitVec m) (y : BitVec n) {start len : Nat} (h : n ≤ start) :
    (x ++ y).extractLsb' start len = x.extractLsb' (start - n) len := by
  apply BitVec.eq_of_getLsbD_eq
  intro k hk
  have : ¬start + k < n := by omega
  simp [BitVec.getLsbD_append, hk, this, show start + k - n = start - n + k by omega]

variable (op : Opcode) (rs rt rd : RegIdx) (shamt : Shamt) (funct : Funct) (imm : Imm19) (address : Addr27)

theorem opcodeField_encodeR : opcodeField (encodeR op rs rt rd shamt funct) = op :=
  (append_high _ _ (by decide)).trans <| (append_high _ _ (by decide)).trans <|
    (append_high _ _ (by decide)).trans <| (append_high _ _ (by decide)).trans <|
    (append_high _ _ (by decide)).trans <| BitVec.extractLsb'_eq_self

theorem rsField_encodeR : rsField (encodeR op rs rt rd shamt funct) = rs :=
  (append_high _ _ (by decide)).trans <| (append_high _ _ (by decide)).trans <|
    (append_high _ _ (by decide)).trans <| (append_high _ _ (by decide)).trans <| append_low _ _

theorem rtField_encodeR : rtField (encodeR op rs rt rd shamt funct) = rt :=
  (append_high _ _ (by decide)).trans <| (append_high _ _ (by decide)).trans <|
    (append_high _ _ (by decide)).trans <| append_low _ _

theorem rdField_encodeR : rdField (encodeR op rs rt rd shamt funct) = rd :=
  (append_high _ _ (by decide)).trans <| (append_high _ _ (by decide)).trans <| append_low _ _

theorem shamtField_encodeR : shamtField (encodeR op rs rt rd shamt funct) = shamt :=
  (append_high _ _ (by decide)).trans <| append_low _ _

theorem functField_encodeR : functField (encodeR op rs rt rd shamt funct) = funct := append_low _ _

theorem opcodeField_encodeI : opcodeField (encodeI op rs rt imm) = op :=
  (append_high _ _ (by decide)).trans <| (append_high _ _ (by decide)).trans <|
    (append_high _ _ (by decide)).trans <| BitVec.extractLsb'_eq_self

theorem rsField_encodeI : rsField (encodeI op rs rt imm) = rs :=
  (append_high _ _ (by decide)).trans <| (append_high _ _ (by decide)).trans <| append_low _ _

theorem rtField_encodeI : rtField (encodeI op rs rt imm) = rt :=
  (append_high _ _ (by decide)).trans <| append_low _ _

theorem immField_encodeI : immField (encodeI op rs rt imm) = imm := append_low _ _

theorem opcodeField_encodeJ : opcodeField (encodeJ op address) = op :=
  (append_high _ _ (by decide)).trans <| BitVec.extractLsb'_eq_self

theorem addressField_encodeJ : addressField (encodeJ op address) = address := append_low _ _

/-- A word that decodes carries its instruction's operation code (R88). -/
theorem opcode_of_decode {w : Word} {i : Instr} (h : decode w = .ok i) : opcodeField w = i.opcode := by
  unfold decode at h
  split at h <;> cases h <;> apply BitVec.eq_of_toNat_eq <;> assumption

/-- Everything decoding can answer: an instruction, or `illegalOpcode` of the word at an unassigned code (R94 a). -/
theorem decode_cases (w : Word) :
    (∃ i, decode w = .ok i) ∨
      (decode w = .error (.illegalOpcode w) ∧ 16 ≤ (opcodeField w).toNat ∧ (opcodeField w).toNat ≤ 30) := by
  have hlt := (opcodeField w).isLt
  unfold decode
  split
  case h_18 => exact .inr ⟨rfl, by grind, by grind⟩
  all_goals exact .inl ⟨_, rfl⟩

/-- The codes that decode to no instruction are the unassigned ones. -/
theorem decode_eq_error {w : Word} {e : DecodeError} :
    decode w = .error e ↔ e = .illegalOpcode w ∧ 16 ≤ (opcodeField w).toNat ∧ (opcodeField w).toNat ≤ 30 := by
  rcases decode_cases w with ⟨i, hi⟩ | ⟨he, hr⟩
  · rw [hi, opcode_of_decode hi]
    simp only [reduceCtorEq, false_iff]
    rintro ⟨-, h1, h2⟩
    cases i <;> revert h1 h2 <;> simp only [Instr.opcode] <;> decide
  · rw [he, Except.error.injEq]
    exact ⟨fun h => ⟨h.symm, hr⟩, fun h => h.1.symm⟩

/-- Strict decoding answers an instruction exactly where plain decoding does and the strict decoder accepts it. -/
theorem decodeWord_eq_ok {strict : Bool} {w : Word} {i : Instr} :
    decodeWord strict w = .ok i ↔ decode w = .ok i ∧ (strict = true → i.strictAccepts = true) := by
  unfold decodeWord
  cases decode w with
  | error e => simp
  | ok j =>
    simp only [Bool.and_eq_true, Bool.not_eq_true', Except.ok.injEq]
    split
    · rename_i h
      simp only [reduceCtorEq, false_iff]
      rintro ⟨rfl, hs⟩
      rw [hs h.1] at h
      exact absurd h.2 (by decide)
    · rename_i h
      simp only [Except.ok.injEq]
      constructor
      · rintro rfl
        exact ⟨rfl, fun hs => by simpa [hs] using h⟩
      · exact And.left

/-- Where decoding under `STRICT_DECODE` fails, and with what (R94, R201). -/
theorem decodeWord_eq_error {strict : Bool} {w : Word} {e : DecodeError} :
    decodeWord strict w = .error e ↔
      (e = .illegalOpcode w ∧ 16 ≤ (opcodeField w).toNat ∧ (opcodeField w).toNat ≤ 30) ∨
        (strict = true ∧ e = .nonCanonical w ∧ ∃ i, decode w = .ok i ∧ i.strictAccepts = false) := by
  rw [← decode_eq_error]
  unfold decodeWord
  cases decode w with
  | error e' => simp
  | ok i => cases strict <;> cases h : i.strictAccepts <;> simp [h, eq_comm (b := e)]

end Sys2Proof
end

