-- ==== Sys2Proof/Laws/State.lean ====
section
/-! SUPPORT. One lemma per field per update of the state, and what the register operations leave alone. -/

namespace Sys2Proof.Machine

@[simp] theorem State.setReg_regs (s : State) (i : RegIdx) (v : Word) :
    (s.setReg i v).regs = s.regs.set i.toNat v i.isLt := rfl
@[simp] theorem State.setReg_written (s : State) (i : RegIdx) (v : Word) :
    (s.setReg i v).written = s.written.set i.toNat true i.isLt := rfl
@[simp] theorem State.setReg_pc (s : State) (i : RegIdx) (v : Word) :
    (s.setReg i v).pc = s.pc := rfl
@[simp] theorem State.setReg_imem (s : State) (i : RegIdx) (v : Word) :
    (s.setReg i v).imem = s.imem := rfl
@[simp] theorem State.setReg_dmem (s : State) (i : RegIdx) (v : Word) :
    (s.setReg i v).dmem = s.dmem := rfl
@[simp] theorem State.setReg_params (s : State) (i : RegIdx) (v : Word) :
    (s.setReg i v).params = s.params := rfl
@[simp] theorem State.setReg_draws (s : State) (i : RegIdx) (v : Word) :
    (s.setReg i v).draws = s.draws := rfl

@[simp] theorem State.setPc_regs (s : State) (p : PcAddr) : (s.setPc p).regs = s.regs := rfl
@[simp] theorem State.setPc_written (s : State) (p : PcAddr) : (s.setPc p).written = s.written := rfl
@[simp] theorem State.setPc_pc (s : State) (p : PcAddr) : (s.setPc p).pc = p := rfl
@[simp] theorem State.setPc_imem (s : State) (p : PcAddr) : (s.setPc p).imem = s.imem := rfl
@[simp] theorem State.setPc_dmem (s : State) (p : PcAddr) : (s.setPc p).dmem = s.dmem := rfl
@[simp] theorem State.setPc_params (s : State) (p : PcAddr) : (s.setPc p).params = s.params := rfl
@[simp] theorem State.setPc_draws (s : State) (p : PcAddr) : (s.setPc p).draws = s.draws := rfl

@[simp] theorem State.setImem_regs (s : State) (m : InstrMemory) : (s.setImem m).regs = s.regs := rfl
@[simp] theorem State.setImem_written (s : State) (m : InstrMemory) : (s.setImem m).written = s.written := rfl
@[simp] theorem State.setImem_pc (s : State) (m : InstrMemory) : (s.setImem m).pc = s.pc := rfl
@[simp] theorem State.setImem_imem (s : State) (m : InstrMemory) : (s.setImem m).imem = m := rfl
@[simp] theorem State.setImem_dmem (s : State) (m : InstrMemory) : (s.setImem m).dmem = s.dmem := rfl
@[simp] theorem State.setImem_params (s : State) (m : InstrMemory) : (s.setImem m).params = s.params := rfl
@[simp] theorem State.setImem_draws (s : State) (m : InstrMemory) : (s.setImem m).draws = s.draws := rfl

@[simp] theorem State.setDmem_regs (s : State) (m : Memory) : (s.setDmem m).regs = s.regs := rfl
@[simp] theorem State.setDmem_written (s : State) (m : Memory) : (s.setDmem m).written = s.written := rfl
@[simp] theorem State.setDmem_pc (s : State) (m : Memory) : (s.setDmem m).pc = s.pc := rfl
@[simp] theorem State.setDmem_imem (s : State) (m : Memory) : (s.setDmem m).imem = s.imem := rfl
@[simp] theorem State.setDmem_dmem (s : State) (m : Memory) : (s.setDmem m).dmem = m := rfl
@[simp] theorem State.setDmem_params (s : State) (m : Memory) : (s.setDmem m).params = s.params := rfl
@[simp] theorem State.setDmem_draws (s : State) (m : Memory) : (s.setDmem m).draws = s.draws := rfl

@[simp] theorem State.setDraws_regs (s : State) (n : Nat) : (s.setDraws n).regs = s.regs := rfl
@[simp] theorem State.setDraws_written (s : State) (n : Nat) : (s.setDraws n).written = s.written := rfl
@[simp] theorem State.setDraws_pc (s : State) (n : Nat) : (s.setDraws n).pc = s.pc := rfl
@[simp] theorem State.setDraws_imem (s : State) (n : Nat) : (s.setDraws n).imem = s.imem := rfl
@[simp] theorem State.setDraws_dmem (s : State) (n : Nat) : (s.setDraws n).dmem = s.dmem := rfl
@[simp] theorem State.setDraws_params (s : State) (n : Nat) : (s.setDraws n).params = s.params := rfl
@[simp] theorem State.setDraws_draws (s : State) (n : Nat) : (s.setDraws n).draws = n := rfl

@[simp] theorem State.afterReads_regs (s : State) (l : List RegIdx) : (s.afterReads l).regs = s.regs := rfl
@[simp] theorem State.afterReads_written (s : State) (l : List RegIdx) : (s.afterReads l).written = s.written := rfl
@[simp] theorem State.afterReads_pc (s : State) (l : List RegIdx) : (s.afterReads l).pc = s.pc := rfl
@[simp] theorem State.afterReads_imem (s : State) (l : List RegIdx) : (s.afterReads l).imem = s.imem := rfl
@[simp] theorem State.afterReads_dmem (s : State) (l : List RegIdx) : (s.afterReads l).dmem = s.dmem := rfl
@[simp] theorem State.afterReads_params (s : State) (l : List RegIdx) : (s.afterReads l).params = s.params := rfl
@[simp] theorem State.afterReads_draws (s : State) (l : List RegIdx) :
    (s.afterReads l).draws = s.draws + s.drawsFor l := rfl
/-- Reading nothing draws nothing. -/
@[simp] theorem State.afterReads_nil (s : State) : s.afterReads [] = s := rfl

@[simp] theorem State.after_pc (s : State) (rd : RegIdx) (v : Word) : (s.after rd v).pc = s.pc + 1 := rfl
@[simp] theorem State.after_imem (s : State) (rd : RegIdx) (v : Word) : (s.after rd v).imem = s.imem := rfl
@[simp] theorem State.after_dmem (s : State) (rd : RegIdx) (v : Word) : (s.after rd v).dmem = s.dmem := rfl
@[simp] theorem State.after_params (s : State) (rd : RegIdx) (v : Word) : (s.after rd v).params = s.params := rfl
@[simp] theorem State.after_draws (s : State) (rd : RegIdx) (v : Word) : (s.after rd v).draws = s.draws := rfl

@[simp] theorem State.writeReg_pc (s : State) (i : RegIdx) (v : Word) : (s.writeReg i v).pc = s.pc := by
  unfold State.writeReg; split <;> rfl
@[simp] theorem State.writeReg_imem (s : State) (i : RegIdx) (v : Word) : (s.writeReg i v).imem = s.imem := by
  unfold State.writeReg; split <;> rfl
@[simp] theorem State.writeReg_dmem (s : State) (i : RegIdx) (v : Word) : (s.writeReg i v).dmem = s.dmem := by
  unfold State.writeReg; split <;> rfl
@[simp] theorem State.writeReg_params (s : State) (i : RegIdx) (v : Word) : (s.writeReg i v).params = s.params := by
  unfold State.writeReg; split <;> rfl
@[simp] theorem State.writeReg_draws (s : State) (i : RegIdx) (v : Word) : (s.writeReg i v).draws = s.draws := by
  unfold State.writeReg; split <;> rfl

/-- The register file after a write: the zero register's is discarded (R23). -/
theorem State.writeReg_regs (s : State) (i : RegIdx) (v : Word) :
    (s.writeReg i v).regs = if i = s.params.zeroReg then s.regs else s.regs.set i.toNat v i.isLt := by
  unfold State.writeReg; split <;> simp_all

/-- Which registers count as written after a write: the zero register's is discarded (R23). -/
theorem State.writeReg_written (s : State) (i : RegIdx) (v : Word) :
    (s.writeReg i v).written = if i = s.params.zeroReg then s.written else s.written.set i.toNat true i.isLt := by
  unfold State.writeReg; split <;> simp_all

/-- A register read depends on the register file and the parameters only. -/
theorem State.readReg_congr {s t : State} (hr : t.regs = s.regs) (hp : t.params = s.params) (i : RegIdx) :
    t.readReg i = s.readReg i := by
  unfold State.readReg; rw [hr, hp]

@[simp] theorem State.readReg_setPc (s : State) (p : PcAddr) (i : RegIdx) : (s.setPc p).readReg i = s.readReg i := rfl
@[simp] theorem State.readReg_setImem (s : State) (m : InstrMemory) (i : RegIdx) :
    (s.setImem m).readReg i = s.readReg i := rfl
@[simp] theorem State.readReg_setDmem (s : State) (m : Memory) (i : RegIdx) : (s.setDmem m).readReg i = s.readReg i := rfl
@[simp] theorem State.readReg_setDraws (s : State) (n : Nat) (i : RegIdx) : (s.setDraws n).readReg i = s.readReg i := rfl

/-- An operand is what the register holds, but under the policy by which R27 asks for a draw. -/
theorem State.operand_of_ne_anyValue {s : State} (h : s.params.unwritten ≠ .anyValue) (before : List RegIdx)
    (i : RegIdx) : s.operand before i = s.readReg i := by
  simp [State.operand, State.drawsAt, h]

/-- An operand is what the register holds where an instruction has written it (R26). -/
theorem State.operand_of_written {s : State} {i : RegIdx} (h : s.written.get i.toFin = true) (before : List RegIdx) :
    s.operand before i = s.readReg i := by
  simp [State.operand, State.drawsAt, State.unset, h]

/-- The operand read from an unwritten register where R27 asks for a draw. -/
theorem State.operand_of_drawsAt {s : State} {i : RegIdx} (h : s.drawsAt i = true) (before : List RegIdx) :
    s.operand before i = Config.freeWord (s.draws + s.drawsFor before) := if_pos h

/-- The zero register reads 0 as an operand too, whatever the policy (R11, R23). -/
@[simp] theorem State.operand_zero (s : State) (before : List RegIdx) : s.operand before s.params.zeroReg = 0 := by
  simp [State.operand, State.drawsAt, State.unset, State.readReg]

/-- The zero register reads 0 (R11, R23). -/
@[simp] theorem State.readReg_zero (s : State) : s.readReg s.params.zeroReg = 0 := if_pos rfl

/-- A cell of the register file after a write to another. -/
theorem regs_get_set_ne {α : Type} (r : Vector α 16) {i j : RegIdx} (v : α) (h : j ≠ i) :
    (r.set i.toNat v i.isLt).get j.toFin = r.get j.toFin := by
  have hn : i.toNat ≠ j.toNat := fun e => h (BitVec.eq_of_toNat_eq e.symm)
  exact Vector.getElem_set_ne i.isLt j.isLt hn

/-- The cell of the register file that was written. -/
theorem regs_get_set_self {α : Type} (r : Vector α 16) (i : RegIdx) (v : α) :
    (r.set i.toNat v i.isLt).get i.toFin = v :=
  Vector.getElem_set_self i.isLt

/-- What a register reads after a result was written (R12, R23). -/
theorem State.readReg_after (s : State) (rd j : RegIdx) (v : Word) :
    (s.after rd v).readReg j = if j = s.params.zeroReg then 0 else if j = rd then v else s.readReg j := by
  unfold State.readReg State.after
  by_cases hj : j = s.params.zeroReg
  · simp [hj]
  · by_cases hrd : rd = s.params.zeroReg
    · have : j ≠ rd := fun e => hj (e.trans hrd)
      simp [hj, hrd]
    · by_cases e : j = rd
      · subst e; simp only [hj, if_false, if_true]; exact regs_get_set_self _ _ _
      · simp only [hj, hrd, e, if_false]; exact regs_get_set_ne _ _ e

/-- Writing a result leaves every cell but the written one, and the zero register's cell always. -/
theorem State.after_cell (s : State) {rd j : RegIdx} (v : Word) (h : j ≠ rd ∨ j = s.params.zeroReg) :
    (s.after rd v).regs.get j.toFin = s.regs.get j.toFin := by
  unfold State.after
  by_cases hz : rd = s.params.zeroReg
  · simp [hz]
  · simp only [hz, if_false]
    exact regs_get_set_ne _ _ (h.elim id fun e => fun e' => hz (e' ▸ e))

/-- Which registers count as written once a result is: those that did, and the register it went to, the zero register
apart (R23, R27). -/
theorem State.after_written (s : State) (rd j : RegIdx) (v : Word) :
    (s.after rd v).written.get j.toFin =
      if j = rd ∧ rd ≠ s.params.zeroReg then true else s.written.get j.toFin := by
  unfold State.after
  by_cases hz : rd = s.params.zeroReg
  · simp [hz]
  · by_cases e : j = rd
    · subst e
      rw [if_pos (And.intro rfl hz)]
      simp only [hz, if_false]
      exact regs_get_set_self s.written j true
    · simp only [hz, if_false, e, false_and]; exact regs_get_set_ne _ _ e

/-- A write followed by `pc + 1` is the state the claims call `after`. -/
theorem State.writeReg_setPc (s : State) (rd : RegIdx) (v : Word) :
    (s.writeReg rd v).setPc ((s.writeReg rd v).pc + 1) = s.after rd v := by
  unfold State.writeReg State.after State.setPc State.setReg
  split <;> rfl

end Sys2Proof.Machine
end

