-- ==== Sys2Proof/Laws/Memory.lean ====
section
/-! SUPPORT. The two memories: reading after writing, and the canonical form that every memory operation keeps. -/

namespace Sys2Proof.Machine

/-- An address below every entry is not listed. -/
theorem cellRead_of_lt {α : Type} {bound : Nat} {low a : Nat} {m : List (Nat × α)} (h : cellsWf bound low m = true)
    (ha : a < low) : cellRead m a = none := by
  induction m generalizing low with
  | nil => rfl
  | cons c rest ih =>
    obtain ⟨k, v⟩ := c
    simp only [cellsWf, Bool.and_eq_true, decide_eq_true_eq] at h
    have hk : k ≠ a := by omega
    simp only [cellRead, hk, if_false]
    exact ih h.2 (by omega)

/-- Reading the address just written gives the value written. -/
@[simp] theorem cellRead_cellWrite_self {α : Type} (m : List (Nat × α)) (a : Nat) (v : α) :
    cellRead (cellWrite m a v) a = some v := by
  induction m with
  | nil => simp [cellWrite, cellRead]
  | cons c rest ih =>
    obtain ⟨k, w⟩ := c
    unfold cellWrite
    split
    · simp [cellRead]
    · split
      · simp [cellRead]
      · rename_i h
        simp [cellRead, Ne.symm h, ih]

/-- Every other address reads as before. -/
theorem cellRead_cellWrite_ne {α : Type} (m : List (Nat × α)) {a b : Nat} (v : α) (h : b ≠ a) :
    cellRead (cellWrite m a v) b = cellRead m b := by
  induction m with
  | nil => simp [cellWrite, cellRead, Ne.symm h]
  | cons c rest ih =>
    obtain ⟨k, w⟩ := c
    unfold cellWrite
    split
    · simp [cellRead, Ne.symm h]
    · split
      · rename_i e
        subst e
        simp [cellRead, Ne.symm h]
      · simp [cellRead, ih]

/-- Reading after a write, both cases at once. -/
theorem cellRead_cellWrite {α : Type} (m : List (Nat × α)) (a b : Nat) (v : α) :
    cellRead (cellWrite m a v) b = if b = a then some v else cellRead m b := by
  split
  · rename_i e; subst e; exact cellRead_cellWrite_self m b v
  · rename_i h; exact cellRead_cellWrite_ne m v h

/-- A write inside the bounds keeps the canonical form. -/
theorem cellsWf_cellWrite {α : Type} {bound low a : Nat} {m : List (Nat × α)} (v : α)
    (h : cellsWf bound low m = true) (hl : low ≤ a) (hb : a < bound) : cellsWf bound low (cellWrite m a v) = true := by
  induction m generalizing low with
  | nil => simp [cellWrite, cellsWf, hl, hb]
  | cons c rest ih =>
    obtain ⟨k, w⟩ := c
    simp only [cellsWf, Bool.and_eq_true, decide_eq_true_eq] at h
    unfold cellWrite
    split
    · simp only [cellsWf, Bool.and_eq_true, decide_eq_true_eq]
      exact ⟨⟨hl, hb⟩, ⟨by omega, h.1.2⟩, h.2⟩
    · split
      · rename_i e
        subst e
        simpa [cellsWf] using h
      · simp only [cellsWf, Bool.and_eq_true, decide_eq_true_eq]
        exact ⟨h.1, ih h.2 (by omega)⟩

/-- A stored word keeps data memory's canonical form where its four bytes are inside the space. -/
theorem Memory.wf_setWord {m : Memory} {a : Nat} (v : Word) (h : m.wf = true) (ha : a + 3 < dataSpaceBytes) :
    (m.setWord a v).wf = true := by
  unfold Memory.wf Memory.setWord at *
  refine cellsWf_cellWrite _ (cellsWf_cellWrite _ (cellsWf_cellWrite _ (cellsWf_cellWrite _ h ?_ ?_) ?_ ?_) ?_ ?_) ?_ ?_
    <;> omega

/-- What each address holds after a word was stored (R57): its four bytes, and every other byte as before. -/
theorem Memory.read_setWord (m : Memory) (a b : Nat) (v : Word) :
    cellRead (m.setWord a v) b =
      if b = a + 3 then some (v.extractLsb' 0 8) else if b = a + 2 then some (v.extractLsb' 8 8)
      else if b = a + 1 then some (v.extractLsb' 16 8) else if b = a then some (v.extractLsb' 24 8)
      else cellRead m b := by
  simp only [Memory.setWord, cellRead_cellWrite]

/-- Outside the four bytes stored to, memory reads as before. -/
theorem Memory.read_setWord_outside (m : Memory) {a b : Nat} (v : Word) (h : b < a ∨ a + 4 ≤ b) :
    cellRead (m.setWord a v) b = cellRead m b := by
  rw [Memory.read_setWord, if_neg (by omega), if_neg (by omega), if_neg (by omega), if_neg (by omega)]

/-- A byte that is listed is read. -/
theorem Memory.byteAt_eq_ok {m : Memory} {a : Nat} {b : Byte} : m.byteAt a = .ok b ↔ cellRead m a = some b := by
  unfold Memory.byteAt
  cases cellRead m a <;> simp

/-- A word is read exactly where its four bytes are listed, and is them big-endian (R52). -/
theorem Memory.wordAt_eq_ok {m : Memory} {a : Nat} {v : Word} :
    m.wordAt a = .ok v ↔ ∃ b0 b1 b2 b3 : Byte, cellRead m a = some b0 ∧ cellRead m (a + 1) = some b1 ∧
      cellRead m (a + 2) = some b2 ∧ cellRead m (a + 3) = some b3 ∧ v = b0 ++ b1 ++ b2 ++ b3 := by
  simp only [Memory.wordAt, Memory.byteAt, bind, Except.bind, pure, Except.pure]
  rcases cellRead m a with _ | b0 <;> rcases cellRead m (a + 1) with _ | b1 <;>
    rcases cellRead m (a + 2) with _ | b2 <;> rcases cellRead m (a + 3) with _ | b3 <;> simp [eq_comm]

/-- A word is its four bytes put together from the high end (R52). -/
theorem word_eq_bytes (v : Word) :
    v = v.extractLsb' 24 8 ++ v.extractLsb' 16 8 ++ v.extractLsb' 8 8 ++ v.extractLsb' 0 8 := by
  apply BitVec.eq_of_getLsbD_eq
  intro k hk
  simp only [BitVec.getLsbD_append, BitVec.getLsbD_extractLsb']
  interval_cases k <;> rfl

/-- The word just stored is the word read (R68). -/
theorem Memory.wordAt_setWord (m : Memory) (a : Nat) (v : Word) : (m.setWord a v).wordAt a = .ok v :=
  Memory.wordAt_eq_ok.mpr ⟨_, _, _, _, by rw [Memory.read_setWord]; simp, by rw [Memory.read_setWord]; simp,
    by rw [Memory.read_setWord]; simp, by rw [Memory.read_setWord]; simp, word_eq_bytes v⟩

/-- A word placed in instruction memory keeps its canonical form. -/
theorem InstrMemory.wf_cellWrite {bound a : Nat} {m : InstrMemory} (w : Word) (h : InstrMemory.wf bound m = true)
    (ha : a < bound) : InstrMemory.wf bound (cellWrite m a w) = true :=
  cellsWf_cellWrite w h (Nat.zero_le _) ha

/-- Words placed in instruction memory stand in canonical form. -/
theorem cellsWf_placeWords (bound at_ : Nat) (ws : List Word) : cellsWf bound at_ (placeWords bound at_ ws) = true := by
  induction ws generalizing at_ with
  | nil => rfl
  | cons w rest ih =>
    unfold placeWords
    split
    · rename_i h; simp [cellsWf, h, ih]
    · rfl

end Sys2Proof.Machine
end

