-- ==== Sys2Proof/Laws/Ops.lean ====
section
/-! SUPPORT. For each shared operation, once, everything it can do: if it answers, then one of these cases holds. -/

namespace Sys2Proof.Machine

/-- `proceed` goes on exactly where the operation answered. -/
theorem proceed_eq_next {α : Type} {r : Except Fault α} {k : α → Result} {t : State} :
    proceed r k = .next t ↔ ∃ v, r = .ok v ∧ k v = .next t := by
  cases r <;> simp [proceed]

/-- `proceed` faults with the operation's fault, or with one of what follows. -/
theorem proceed_eq_fault {α : Type} {r : Except Fault α} {k : α → Result} {f : Fault} :
    proceed r k = .fault f ↔ r = .error f ∨ ∃ v, r = .ok v ∧ k v = .fault f := by
  cases r <;> simp [proceed]

/-- A used field is reserved exactly where it names the reserved branch-flag register. -/
theorem State.reserves_iff {s : State} {i : RegIdx} :
    s.reserves i = true ↔ s.params.flagPolicy = .reserved ∧ i = s.params.flagReg := by
  simp [State.reserves]

/-- The guard passes exactly where the fields are usable (R24). -/
theorem guardRegs_of_usable {s : State} {fields : List RegIdx} (h : s.Usable fields) (k : Result) :
    guardRegs s fields k = k := by
  have : fields.find? s.reserves = none := by
    rw [List.find?_eq_none]
    rintro x hx hr
    obtain ⟨hp, rfl⟩ := State.reserves_iff.mp hr
    exact h hp hx
  simp [guardRegs, this]

/-- The guard stops exactly where a used field names the reserved register, and reports that register (R24). -/
theorem guardRegs_of_reserved {s : State} {fields : List RegIdx} (hp : s.params.flagPolicy = .reserved)
    (hm : s.params.flagReg ∈ fields) (k : Result) : guardRegs s fields k = .fault (.reservedRegister s.params.flagReg) := by
  unfold guardRegs
  cases hf : fields.find? s.reserves with
  | none =>
    rw [List.find?_eq_none] at hf
    exact absurd (State.reserves_iff.mpr ⟨hp, rfl⟩) (hf _ hm)
  | some i =>
    have := List.find?_some hf
    obtain ⟨-, rfl⟩ := State.reserves_iff.mp this
    rfl

/-- Everything the guard can do. -/
theorem guardRegs_cases (s : State) (fields : List RegIdx) (k : Result) :
    (s.Usable fields ∧ guardRegs s fields k = k) ∨
      (s.params.flagPolicy = .reserved ∧ s.params.flagReg ∈ fields ∧
        guardRegs s fields k = .fault (.reservedRegister s.params.flagReg)) := by
  by_cases h : s.Usable fields
  · exact .inl ⟨h, guardRegs_of_usable h k⟩
  · push Not at h
    exact .inr ⟨h.1, h.2, guardRegs_of_reserved h.1 h.2 k⟩

theorem guardRegs_eq_next {s : State} {fields : List RegIdx} {k : Result} {t : State} :
    guardRegs s fields k = .next t ↔ s.Usable fields ∧ k = .next t := by
  rcases guardRegs_cases s fields k with ⟨h, e⟩ | ⟨hp, hm, e⟩
  · rw [e]; exact ⟨fun hk => ⟨h, hk⟩, And.right⟩
  · rw [e]; simp only [reduceCtorEq, false_iff]; rintro ⟨h, -⟩; exact h hp hm

/-- A source register lacks a value exactly where the policy is the fault and nothing has written it (R27). -/
theorem State.lacksValue_iff {s : State} {i : RegIdx} :
    s.lacksValue i = true ↔
      s.params.unwritten = .fault ∧ i ≠ s.params.zeroReg ∧ s.written.get i.toFin = false := by
  simp [State.lacksValue, State.unset]

/-- A read draws exactly where the policy asks for a draw and nothing has written the register (R27). -/
theorem State.drawsAt_iff {s : State} {i : RegIdx} :
    s.drawsAt i = true ↔
      s.params.unwritten = .anyValue ∧ i ≠ s.params.zeroReg ∧ s.written.get i.toFin = false := by
  simp [State.drawsAt, State.unset]

/-- Everything an operand can be: the number of the draw, or what the register holds (R11, R27). -/
theorem State.operand_cases (s : State) (before : List RegIdx) (i : RegIdx) :
    (s.drawsAt i = true ∧ s.operand before i = Config.freeWord (s.draws + s.drawsFor before)) ∨
      (s.drawsAt i = false ∧ s.operand before i = s.readReg i) := by
  unfold State.operand
  cases s.drawsAt i <;> simp

/-- Reads draw nothing under the other policies. -/
theorem State.drawsFor_of_ne_anyValue {s : State} (h : s.params.unwritten ≠ .anyValue) (read : List RegIdx) :
    s.drawsFor read = 0 := by
  simp [State.drawsFor, State.drawsAt, h]

/-- Operands depend on the sources' registers, on whether these were written, on the policy and on the draws made
before. -/
theorem State.operand_congr {s t : State} (hp : t.params = s.params) (hd : t.draws = s.draws) {read : List RegIdx}
    (h : ∀ r ∈ read, t.readReg r = s.readReg r ∧ t.written.get r.toFin = s.written.get r.toFin)
    {before : List RegIdx} {i : RegIdx} (hb : before ⊆ read) (hi : i ∈ read) :
    t.operand before i = s.operand before i ∧ t.drawsFor before = s.drawsFor before := by
  have ha : ∀ r ∈ read, t.drawsAt r = s.drawsAt r := fun r hr => by
    unfold State.drawsAt State.unset; rw [hp, (h r hr).2]
  have hf : t.drawsFor before = s.drawsFor before := by
    unfold State.drawsFor; rw [List.filter_congr fun r hr => ha r (hb hr)]
  unfold State.operand
  rw [ha i hi, hd, hf, (h i hi).1]
  exact ⟨rfl, rfl⟩

/-- No register lacks a value exactly where all are readable. -/
theorem State.readable_iff {s : State} {read : List RegIdx} : s.Readable read ↔ read.find? s.lacksValue = none := by
  simp only [List.find?_eq_none, State.lacksValue_iff, State.Readable]
  constructor
  · rintro h r hr ⟨hp, hz, hw⟩
    rcases h hp r hr with e | e
    · exact hz e
    · rw [hw] at e; cases e
  · intro h hp r hr
    by_contra hc
    push Not at hc
    exact h r hr ⟨hp, hc.1, by simpa using hc.2⟩

/-- Everything the check of the sources can do (R201 (4)). -/
theorem guardReads_cases (s : State) (read : List RegIdx) (k : Result) :
    (s.Readable read ∧ guardReads s read k = k) ∨
      ∃ i, read.find? s.lacksValue = some i ∧ guardReads s read k = .fault (.unwrittenRegister i) := by
  rw [State.readable_iff]
  unfold guardReads
  cases read.find? s.lacksValue <;> simp

theorem guardReads_eq_next {s : State} {read : List RegIdx} {k : Result} {t : State} :
    guardReads s read k = .next t ↔ s.Readable read ∧ k = .next t := by
  rw [State.readable_iff]
  unfold guardReads
  cases read.find? s.lacksValue <;> simp

theorem guardReads_eq_fault {s : State} {read : List RegIdx} {k : Result} {f : Fault} :
    guardReads s read k = .fault f ↔
      (∃ i, read.find? s.lacksValue = some i ∧ f = .unwrittenRegister i) ∨ (s.Readable read ∧ k = .fault f) := by
  rw [State.readable_iff]
  unfold guardReads
  cases read.find? s.lacksValue <;> simp [eq_comm]

/-- The operands pass exactly where the fields are usable and the sources readable. -/
theorem withOperands_of_ready {s : State} {fields read : List RegIdx} (hu : s.Usable fields) (hr : s.Readable read)
    (k : State → Result) : withOperands s fields read k = k (s.afterReads read) := by
  unfold withOperands guardReads
  rw [guardRegs_of_usable hu, State.readable_iff.mp hr]

theorem withOperands_eq_next {s : State} {fields read : List RegIdx} {k : State → Result} {t : State} :
    withOperands s fields read k = .next t ↔ s.Usable fields ∧ s.Readable read ∧ k (s.afterReads read) = .next t := by
  unfold withOperands
  rw [guardRegs_eq_next, guardReads_eq_next]

/-- `pc + 1` where there is room. -/
theorem State.advance_of_room {s : State} (h : s.CanAdvance) : s.advance = .next (s.setPc (s.pc + 1)) := by
  unfold State.advance
  rw [if_neg]
  rintro ⟨h1, h2⟩
  exact h h1 h2

theorem State.advance_eq_next {s t : State} : s.advance = .next t ↔ s.CanAdvance ∧ t = s.setPc (s.pc + 1) := by
  unfold State.advance
  split
  · rename_i h; simp only [reduceCtorEq, false_iff]; rintro ⟨hc, -⟩; exact hc h.1 h.2
  · rename_i h
    simp only [Host.Outcome.next.injEq]
    constructor
    · rintro rfl; exact ⟨fun h1 h2 => h ⟨h1, h2⟩, rfl⟩
    · rintro ⟨-, rfl⟩; rfl

@[simp] theorem State.canAdvance_afterReads (s : State) (read : List RegIdx) :
    (s.afterReads read).CanAdvance ↔ s.CanAdvance := Iff.rfl

@[simp] theorem State.places_afterReads (s : State) (read : List RegIdx) (ea : Word) (n a : Nat) :
    (s.afterReads read).Places ea n a ↔ s.Places ea n a := Iff.rfl

@[simp] theorem State.loadWord_afterReads (s : State) (read : List RegIdx) (ea : Word) :
    (s.afterReads read).loadWord ea = s.loadWord ea := rfl

@[simp] theorem State.loadByte_afterReads (s : State) (read : List RegIdx) (ea : Word) :
    (s.afterReads read).loadByte ea = s.loadByte ea := rfl

@[simp] theorem State.canAdvance_writeReg (s : State) (i : RegIdx) (v : Word) :
    (s.writeReg i v).CanAdvance ↔ s.CanAdvance := by
  unfold State.CanAdvance; simp

/-- How an instruction that writes a register ends. -/
theorem State.finish_of_room {s : State} (h : s.CanAdvance) (rd : RegIdx) (v : Word) :
    s.finish rd v = .next (s.after rd v) := by
  unfold State.finish
  rw [State.advance_of_room ((State.canAdvance_writeReg s rd v).mpr h), State.writeReg_setPc]

theorem State.finish_eq_next {s t : State} {rd : RegIdx} {v : Word} :
    s.finish rd v = .next t ↔ s.CanAdvance ∧ t = s.after rd v := by
  unfold State.finish
  rw [State.advance_eq_next, State.writeReg_setPc, State.canAdvance_writeReg]

/-- An access inside the space, or wrapped into it, takes place at the address the claims name, aligned for a word
(R56, R57, R59). -/
theorem State.place_eq_ok {s : State} {ea : Word} {n : Width} {a : Nat} :
    s.place ea n = .ok a ↔ s.Places ea n.bytes a ∧ (n = .word → a % 4 = 0) := by
  have key : ∀ x : Nat, checkAligned x n = .ok a ↔ a = x ∧ (n = .word → a % 4 = 0) := by
    intro x
    unfold checkAligned
    split
    · rename_i h; simp only [reduceCtorEq, false_iff]; rintro ⟨rfl, h2⟩; exact h.2 (h2 h.1)
    · rename_i h
      simp only [Except.ok.injEq]
      constructor
      · rintro rfl; exact ⟨rfl, fun e => by by_contra h3; exact h ⟨e, h3⟩⟩
      · rintro ⟨rfl, -⟩; rfl
  have hn : 1 ≤ n.bytes := by cases n <;> decide
  unfold State.place State.Places dataSpaceBytes
  split
  · split
    · rename_i hp
      simp only [reduceCtorEq, false_iff]
      rintro ⟨⟨h1, -⟩ | ⟨-, h2, -⟩, -⟩
      · omega
      · rw [hp] at h2; cases h2
    · rename_i hp
      rw [key]
      constructor
      · rintro ⟨h1, h2⟩; exact ⟨.inr ⟨by omega, hp, by omega⟩, h2⟩
      · rintro ⟨⟨h1, -⟩ | ⟨-, -, h1⟩, h2⟩
        · omega
        · exact ⟨by omega, h2⟩
  · rw [key]
    constructor
    · rintro ⟨h1, h2⟩; exact ⟨.inl ⟨by omega, h1⟩, h2⟩
    · rintro ⟨⟨-, h1⟩ | ⟨h1, -, -⟩, h2⟩
      · exact ⟨h1, h2⟩
      · omega

/-- A byte load answers exactly where the access takes place and the byte has a value. -/
theorem State.loadByte_eq_ok {s : State} {ea : Word} {b : Byte} :
    s.loadByte ea = .ok b ↔ ∃ a, s.Places ea 1 a ∧ cellRead s.dmem a = some b := by
  simp only [State.loadByte, bind, Except.bind]
  cases h : s.place ea .byte with
  | error f =>
    simp only [reduceCtorEq, false_iff]
    rintro ⟨a, ha, -⟩
    have : s.place ea .byte = .ok a := State.place_eq_ok.mpr ⟨ha, fun e => by cases e⟩
    rw [h] at this; cases this
  | ok a =>
    have ha := (State.place_eq_ok.mp h).1
    simp only [Memory.byteAt_eq_ok]
    constructor
    · intro hb; exact ⟨a, ha, hb⟩
    · rintro ⟨a', ha', hb⟩
      have : s.place ea .byte = .ok a' := State.place_eq_ok.mpr ⟨ha', fun e => by cases e⟩
      rw [h] at this; cases this; exact hb

/-- A word load answers exactly where the access takes place, aligned, and its four bytes have values. -/
theorem State.loadWord_eq_ok {s : State} {ea : Word} {v : Word} :
    s.loadWord ea = .ok v ↔ ∃ a, s.Places ea 4 a ∧ a % 4 = 0 ∧ s.dmem.wordAt a = .ok v := by
  simp only [State.loadWord, bind, Except.bind]
  cases h : s.place ea .word with
  | error f =>
    simp only [reduceCtorEq, false_iff]
    rintro ⟨a, ha, h4, -⟩
    have : s.place ea .word = .ok a := State.place_eq_ok.mpr ⟨ha, fun _ => h4⟩
    rw [h] at this; cases this
  | ok a =>
    have ha := State.place_eq_ok.mp h
    constructor
    · intro hv; exact ⟨a, ha.1, ha.2 rfl, hv⟩
    · rintro ⟨a', ha', h4, hv⟩
      have : s.place ea .word = .ok a' := State.place_eq_ok.mpr ⟨ha', fun _ => h4⟩
      rw [h] at this; cases this; exact hv

/-- A store answers exactly where the access takes place, aligned, and changes data memory alone. -/
theorem State.storeWord_eq_ok {s t : State} {ea v : Word} :
    s.storeWord ea v = .ok t ↔ ∃ a, s.Places ea 4 a ∧ a % 4 = 0 ∧ t = s.setDmem (s.dmem.setWord a v) := by
  simp only [State.storeWord, bind, Except.bind, pure, Except.pure]
  cases h : s.place ea .word with
  | error f =>
    simp only [reduceCtorEq, false_iff]
    rintro ⟨a, ha, h4, -⟩
    have : s.place ea .word = .ok a := State.place_eq_ok.mpr ⟨ha, fun _ => h4⟩
    rw [h] at this; cases this
  | ok a =>
    have ha := State.place_eq_ok.mp h
    simp only [Except.ok.injEq]
    constructor
    · rintro rfl; exact ⟨a, ha.1, ha.2 rfl, rfl⟩
    · rintro ⟨a', ha', h4, rfl⟩
      have : s.place ea .word = .ok a' := State.place_eq_ok.mpr ⟨ha', fun _ => h4⟩
      rw [h] at this; cases this; rfl

/-- A word that is stored or loaded lies inside the data space. -/
theorem State.Places.lt {s : State} {ea : Word} {a : Nat} (h : s.Places ea 4 a) (h4 : a % 4 = 0) :
    a + 3 < dataSpaceBytes := by
  unfold dataSpaceBytes
  rcases h with ⟨h, rfl⟩ | ⟨-, -, rfl⟩ <;> omega

/-- Everything DIV's quotient can be (R131 to R133). -/
theorem State.quotient_eq_ok {s : State} {a b v : Word} {t : State} (h : s.quotient a b = .ok (v, t)) :
    (b = 0 ∧ s.params.divZero = .anyValue ∧ v = Config.freeWord s.draws ∧ t = s.setDraws (s.draws + 1)) ∨
      (b ≠ 0 ∧ a.toNat < 2 ^ 31 ∧ b.toNat < 2 ^ 31 ∧ v = a / b ∧ t = s) ∨
      (b ≠ 0 ∧ ¬(a.toNat < 2 ^ 31 ∧ b.toNat < 2 ^ 31) ∧ s.params.divFn = .supplied ∧ v = Config.divFn a b ∧ t = s) := by
  unfold State.quotient at h
  split at h
  · rename_i hb
    split at h
    · cases h
    · rename_i hz
      simp only [State.draw, Except.ok.injEq, Prod.mk.injEq] at h
      exact .inl ⟨hb, hz, h.1.symm, h.2.symm⟩
  · rename_i hb
    split at h
    · rename_i hd
      simp only [Except.ok.injEq, Prod.mk.injEq] at h
      exact .inr (.inl ⟨hb, hd.1, hd.2, h.1.symm, h.2.symm⟩)
    · rename_i hd
      split at h
      · rename_i hf
        simp only [Except.ok.injEq, Prod.mk.injEq] at h
        exact .inr (.inr ⟨hb, hd, hf, h.1.symm, h.2.symm⟩)
      · cases h

/-- The state a quotient goes on from differs from the one it started from in the count of draws alone, which never
falls. -/
theorem State.quotient_state {s : State} {a b v : Word} {t : State} (h : s.quotient a b = .ok (v, t)) :
    t = s.setDraws t.draws ∧ s.draws ≤ t.draws := by
  rcases State.quotient_eq_ok h with ⟨-, -, -, rfl⟩ | ⟨-, -, -, -, rfl⟩ | ⟨-, -, -, -, rfl⟩
  · exact ⟨rfl, Nat.le_succ _⟩
  · exact ⟨rfl, le_rfl⟩
  · exact ⟨rfl, le_rfl⟩

/-- The fetch answers an instruction exactly where the word at `pc` is defined and decodes. -/
theorem State.fetch_eq_ok {s : State} {i : Instr} :
    s.fetch = .ok i ↔ ∃ w, s.instrWord s.pc = some w ∧ decodeWord s.params.strictDecode w = .ok i := by
  unfold State.fetch
  cases s.instrWord s.pc with
  | none => simp
  | some w => cases h : decodeWord s.params.strictDecode w <;> simp [h]

/-- The word just placed at `pc` is the word fetched from there (R36, R58). -/
theorem State.instrWord_placeAtPc (s : State) (w : Word) (h : s.pc.toNat < s.params.imemWords) :
    (s.placeAtPc w).instrWord s.pc = some w := by
  unfold State.placeAtPc
  cases hm : s.params.imemModel <;> simp [State.instrWord, hm, h, Memory.wordAt_setWord, Except.toOption]

/-- Where the fetch faults, and with what (R192, R193). -/
theorem State.fetch_eq_error {s : State} {f : Fault} :
    s.fetch = .error f ↔ (s.instrWord s.pc = none ∧ f = .illegalOpcode none) ∨
      ∃ w e, s.instrWord s.pc = some w ∧ decodeWord s.params.strictDecode w = .error e ∧
        f = DecodeError.toFault e := by
  unfold State.fetch
  cases s.instrWord s.pc with
  | none => simp [eq_comm]
  | some w => cases h : decodeWord s.params.strictDecode w <;> simp [h, eq_comm]

/-- A step answers what the fetched instruction answers. -/
theorem step_eq_next {s t : State} : step s = .next t ↔ ∃ i, s.fetch = .ok i ∧ exec i s = .next t := by
  unfold step
  cases s.fetch <;> simp

/-- A step faults in the fetch, or as the fetched instruction does. -/
theorem step_eq_fault {s : State} {f : Fault} :
    step s = .fault f ↔ s.fetch = .error f ∨ ∃ i, s.fetch = .ok i ∧ exec i s = .fault f := by
  unfold step
  cases s.fetch <;> simp

/-! ### Where an operation faults -/

theorem guardRegs_eq_fault {s : State} {fields : List RegIdx} {k : Result} {f : Fault} :
    guardRegs s fields k = .fault f ↔
      (s.params.flagPolicy = .reserved ∧ s.params.flagReg ∈ fields ∧ f = .reservedRegister s.params.flagReg) ∨
        (s.Usable fields ∧ k = .fault f) := by
  rcases guardRegs_cases s fields k with ⟨h, e⟩ | ⟨hp, hm, e⟩
  · rw [e]
    exact ⟨fun hk => .inr ⟨h, hk⟩, fun hk => hk.elim (fun ⟨a, b, _⟩ => absurd b (h a)) And.right⟩
  · rw [e, Host.Outcome.fault.injEq]
    exact ⟨fun hk => .inl ⟨hp, hm, hk.symm⟩, fun hk => hk.elim (fun ⟨_, _, c⟩ => c.symm) fun ⟨h, _⟩ => absurd hm (h hp)⟩

/-- Where the operands fault, and with what, in the order of R201. -/
theorem withOperands_eq_fault {s : State} {fields read : List RegIdx} {k : State → Result} {f : Fault} :
    withOperands s fields read k = .fault f ↔
      (s.params.flagPolicy = .reserved ∧ s.params.flagReg ∈ fields ∧ f = .reservedRegister s.params.flagReg) ∨
        (s.Usable fields ∧ ∃ i, read.find? s.lacksValue = some i ∧ f = .unwrittenRegister i) ∨
        (s.Usable fields ∧ s.Readable read ∧ k (s.afterReads read) = .fault f) := by
  unfold withOperands
  rw [guardRegs_eq_fault, guardReads_eq_fault, and_or_left]

theorem State.advance_eq_fault {s : State} {f : Fault} :
    s.advance = .fault f ↔ (s.params.pcWrap = .fault ∧ s.pc = 1023) ∧ f = .pcOverflow := by
  unfold State.advance
  split
  · rename_i h; simp [h, eq_comm]
  · rename_i h; simp only [reduceCtorEq, false_iff]; exact fun hh => h hh.1

theorem State.finish_eq_fault {s : State} {rd : RegIdx} {v : Word} {f : Fault} :
    s.finish rd v = .fault f ↔ (s.params.pcWrap = .fault ∧ s.pc = 1023) ∧ f = .pcOverflow := by
  simp [State.finish, State.advance_eq_fault]

/-- Everything the checks of a byte access can do: it takes place, or it is out of range. -/
theorem State.place_byte_cases (s : State) (ea : Word) :
    (∃ a, s.place ea .byte = .ok a ∧ s.Places ea 1 a) ∨
      (s.place ea .byte = .error (.addressOutOfRange ea) ∧ s.params.outOfRange = .fault ∧ 2 ^ 21 < ea.toNat + 1) := by
  by_cases h : ∃ a, s.Places ea 1 a
  · obtain ⟨a, ha⟩ := h
    exact .inl ⟨a, State.place_eq_ok.mpr ⟨ha, by simp⟩, ha⟩
  · right
    push Not at h
    have h1 : ¬ea.toNat + 1 ≤ 2 ^ 21 := fun hh => (h _).1 hh rfl
    cases hp : s.params.outOfRange with
    | wrap => exact absurd rfl ((h (ea.toNat % 2 ^ 21)).2 (by omega) hp)
    | fault =>
      refine ⟨?_, rfl, by omega⟩
      unfold State.place
      rw [if_pos (by simp [Width.bytes, dataSpaceBytes]; omega), hp]

/-- Everything the checks of a word access can do: it takes place aligned, it is misaligned, or it is out of range. -/
theorem State.place_word_cases (s : State) (ea : Word) :
    (∃ a, s.place ea .word = .ok a ∧ s.Places ea 4 a ∧ a % 4 = 0) ∨
      (∃ a, s.place ea .word = .error (.misalignedAccess (BitVec.ofNat 32 a)) ∧ s.Places ea 4 a ∧ a % 4 ≠ 0) ∨
      (s.place ea .word = .error (.addressOutOfRange ea) ∧ s.params.outOfRange = .fault ∧ 2 ^ 21 < ea.toNat + 4) := by
  have key : ∀ a, s.Places ea 4 a → s.place ea .word = checkAligned a .word →
      (∃ a, s.place ea .word = .ok a ∧ s.Places ea 4 a ∧ a % 4 = 0) ∨
      (∃ a, s.place ea .word = .error (.misalignedAccess (BitVec.ofNat 32 a)) ∧ s.Places ea 4 a ∧ a % 4 ≠ 0) := by
    intro a ha he
    by_cases h4 : a % 4 = 0
    · exact .inl ⟨a, he.trans (if_neg fun h => h.2 h4), ha, h4⟩
    · exact .inr ⟨a, he.trans (if_pos ⟨rfl, h4⟩), ha, h4⟩
  rw [← or_assoc]
  unfold State.place Width.bytes dataSpaceBytes at *
  by_cases h : ea.toNat + 4 ≤ 2 ^ 21
  · have hr : ¬ea.toNat + 4 - 1 ≥ 2097152 := by omega
    exact .inl (key _ (.inl ⟨h, rfl⟩) (if_neg hr))
  · have hr : ea.toNat + 4 - 1 ≥ 2097152 := by omega
    cases hp : s.params.outOfRange with
    | fault => exact .inr ⟨if_pos hr, rfl, by omega⟩
    | wrap => rw [hp] at key; exact .inl (key _ (.inr ⟨by omega, hp, rfl⟩) (if_pos hr))

/-- An access has one place. -/
theorem State.Places.unique {s : State} {ea : Word} {n a b : Nat} (h : s.Places ea n a) (h' : s.Places ea n b) :
    a = b := by
  rcases h with ⟨h1, h2⟩ | ⟨h1, h2, h3⟩ <;> rcases h' with ⟨g1, g2⟩ | ⟨g1, g2, g3⟩ <;> omega

/-- An access out of range under `OUT_OF_RANGE = fault` has no place. -/
theorem State.Places.not_of_outOfRange {s : State} {ea : Word} {n a : Nat} (hp : s.params.outOfRange = .fault)
    (h : 2 ^ 21 < ea.toNat + n) : ¬s.Places ea n a := by
  rintro (⟨h1, -⟩ | ⟨-, h1, -⟩)
  · omega
  · rw [hp] at h1; cases h1

theorem Memory.byteAt_eq_error {m : Memory} {a : Nat} {f : Fault} :
    m.byteAt a = .error f ↔ cellRead m a = none ∧ f = .undefinedMemory (BitVec.ofNat 32 a) := by
  unfold Memory.byteAt
  cases cellRead m a <;> simp [eq_comm]

/-- A word load faults on its lowest byte without a value (R212). -/
theorem Memory.wordAt_eq_error {m : Memory} {a : Nat} {f : Fault} :
    m.wordAt a = .error f ↔ ∃ k < 4, cellRead m (a + k) = none ∧ (∀ j < k, cellRead m (a + j) ≠ none) ∧
      f = .undefinedMemory (BitVec.ofNat 32 (a + k)) := by
  have lt4 : ∀ P : Nat → Prop, (∃ k < 4, P k) ↔ P 0 ∨ P 1 ∨ P 2 ∨ P 3 := by
    intro P
    constructor
    · rintro ⟨k, hk, h⟩; interval_cases k <;> simp [h]
    · rintro (h | h | h | h) <;> exact ⟨_, by omega, h⟩
  rw [lt4]
  simp only [Nat.not_lt_zero, false_imp_iff, implies_true, true_and, Nat.forall_lt_succ_left, Nat.add_zero, Nat.zero_add]
  simp only [Memory.wordAt, Memory.byteAt, bind, Except.bind, pure, Except.pure]
  rcases cellRead m a with _ | b0 <;> rcases cellRead m (a + 1) with _ | b1 <;>
    rcases cellRead m (a + 2) with _ | b2 <;> rcases cellRead m (a + 3) with _ | b3 <;> simp [eq_comm]

/-- Where a byte load faults, and with what. -/
theorem State.loadByte_eq_error {s : State} {ea : Word} {f : Fault} :
    s.loadByte ea = .error f ↔
      (s.params.outOfRange = .fault ∧ 2 ^ 21 < ea.toNat + 1 ∧ f = .addressOutOfRange ea) ∨
        ∃ a, s.Places ea 1 a ∧ cellRead s.dmem a = none ∧ f = .undefinedMemory (BitVec.ofNat 32 a) := by
  simp only [State.loadByte, bind, Except.bind]
  rcases State.place_byte_cases s ea with ⟨a, e, ha⟩ | ⟨e, hp, hr⟩
  · rw [e]
    simp only [Memory.byteAt_eq_error]
    constructor
    · exact fun h => .inr ⟨a, ha, h⟩
    · rintro (⟨hp, hr, -⟩ | ⟨b, hb, h⟩)
      · exact absurd ha (State.Places.not_of_outOfRange hp hr)
      · rw [ha.unique hb]; exact h
  · rw [e]
    simp only [Except.error.injEq]
    constructor
    · rintro rfl; exact .inl ⟨hp, hr, rfl⟩
    · rintro (⟨-, -, rfl⟩ | ⟨b, hb, -⟩)
      · rfl
      · exact absurd hb (State.Places.not_of_outOfRange hp hr)

/-- Where a word load faults, and with what, in the order of R201. -/
theorem State.loadWord_eq_error {s : State} {ea : Word} {f : Fault} :
    s.loadWord ea = .error f ↔
      (s.params.outOfRange = .fault ∧ 2 ^ 21 < ea.toNat + 4 ∧ f = .addressOutOfRange ea) ∨
        (∃ a, s.Places ea 4 a ∧ a % 4 ≠ 0 ∧ f = .misalignedAccess (BitVec.ofNat 32 a)) ∨
        ∃ a, s.Places ea 4 a ∧ a % 4 = 0 ∧ s.dmem.wordAt a = .error f := by
  simp only [State.loadWord, bind, Except.bind]
  rcases State.place_word_cases s ea with ⟨a, e, ha, h4⟩ | ⟨a, e, ha, h4⟩ | ⟨e, hp, hr⟩
  · rw [e]
    constructor
    · exact fun h => .inr (.inr ⟨a, ha, h4, h⟩)
    · rintro (⟨hp, hr, -⟩ | ⟨b, hb, h, -⟩ | ⟨b, hb, -, h⟩)
      · exact absurd ha (State.Places.not_of_outOfRange hp hr)
      · exact absurd (ha.unique hb ▸ h4) h
      · rw [ha.unique hb]; exact h
  · rw [e]
    simp only [Except.error.injEq]
    constructor
    · rintro rfl; exact .inr (.inl ⟨a, ha, h4, rfl⟩)
    · rintro (⟨hp, hr, -⟩ | ⟨b, hb, -, rfl⟩ | ⟨b, hb, h, -⟩)
      · exact absurd ha (State.Places.not_of_outOfRange hp hr)
      · rw [ha.unique hb]
      · exact absurd (ha.unique hb ▸ h) h4
  · rw [e]
    simp only [Except.error.injEq]
    constructor
    · rintro rfl; exact .inl ⟨hp, hr, rfl⟩
    · rintro (⟨-, -, rfl⟩ | ⟨b, hb, -⟩ | ⟨b, hb, -⟩)
      · rfl
      · exact absurd hb (State.Places.not_of_outOfRange hp hr)
      · exact absurd hb (State.Places.not_of_outOfRange hp hr)

/-- Where a store faults, and with what: range, then alignment (R57). -/
theorem State.storeWord_eq_error {s : State} {ea v : Word} {f : Fault} :
    s.storeWord ea v = .error f ↔
      (s.params.outOfRange = .fault ∧ 2 ^ 21 < ea.toNat + 4 ∧ f = .addressOutOfRange ea) ∨
        ∃ a, s.Places ea 4 a ∧ a % 4 ≠ 0 ∧ f = .misalignedAccess (BitVec.ofNat 32 a) := by
  simp only [State.storeWord, bind, Except.bind, pure, Except.pure]
  rcases State.place_word_cases s ea with ⟨a, e, ha, h4⟩ | ⟨a, e, ha, h4⟩ | ⟨e, hp, hr⟩
  · rw [e]
    simp only [reduceCtorEq, false_iff]
    rintro (⟨hp, hr, -⟩ | ⟨b, hb, h, -⟩)
    · exact absurd ha (State.Places.not_of_outOfRange hp hr)
    · exact absurd (ha.unique hb ▸ h4) h
  · rw [e]
    simp only [Except.error.injEq]
    constructor
    · rintro rfl; exact .inr ⟨a, ha, h4, rfl⟩
    · rintro (⟨hp, hr, -⟩ | ⟨b, hb, -, rfl⟩)
      · exact absurd ha (State.Places.not_of_outOfRange hp hr)
      · rw [ha.unique hb]
  · rw [e]
    simp only [Except.error.injEq]
    constructor
    · rintro rfl; exact .inl ⟨hp, hr, rfl⟩
    · rintro (⟨-, -, rfl⟩ | ⟨b, hb, -⟩)
      · rfl
      · exact absurd hb (State.Places.not_of_outOfRange hp hr)

/-- Where DIV's quotient faults, and with what (R198, R199). -/
theorem State.quotient_eq_error {s : State} {a b : Word} {f : Fault} :
    s.quotient a b = .error f ↔ (b = 0 ∧ s.params.divZero = .fault ∧ f = .divideByZero) ∨
      (b ≠ 0 ∧ ¬(a.toNat < 2 ^ 31 ∧ b.toNat < 2 ^ 31) ∧ s.params.divFn = .unsupplied ∧ f = .divideUndecided a b) := by
  unfold State.quotient
  split
  · rename_i hb
    cases s.params.divZero <;> simp [hb, eq_comm]
  · rename_i hb
    split
    · rename_i hd
      simp only [reduceCtorEq, false_iff]
      rintro (⟨h, -⟩ | ⟨-, h, -⟩)
      · exact hb h
      · exact h hd
    · rename_i hd
      cases s.params.divFn <;> simp only [hb, hd, not_false_eq_true, ne_eq, true_and, false_and, false_or, reduceCtorEq,
        Except.error.injEq, eq_comm]

end Sys2Proof.Machine
end

