-- ==== Sys2Proof/Laws/Exec.lean ====
section
/-! SUPPORT. What a whole instruction can do, said once: the shape of the state it goes on to. -/

namespace Sys2Proof.Machine

/-- What a three-register instruction goes on to (R115). -/
theorem threeRegister_eq_next {rs rt rd : RegIdx} {s t : State} {f : Word → Word → Word} :
    threeRegister rs rt rd s f = .next t ↔
      s.Usable [rs, rt, rd] ∧ s.Readable [rs, rt] ∧ s.CanAdvance ∧
        t = (s.afterReads [rs, rt]).after rd (f (s.operand [] rs) (s.operand [rs] rt)) := by
  unfold threeRegister
  rw [withOperands_eq_next, State.finish_eq_next, State.canAdvance_afterReads]

/-- What DIV goes on to: a quotient was found, and is written (R131). -/
theorem execDiv_eq_next {rs rt rd : RegIdx} {s t : State} :
    execDiv rs rt rd s = .next t ↔
      s.Usable [rs, rt, rd] ∧ s.Readable [rs, rt] ∧
        ∃ q, (s.afterReads [rs, rt]).quotient (s.operand [] rs) (s.operand [rs] rt) = .ok q ∧ q.2.CanAdvance ∧ t = q.2.after rd q.1 := by
  unfold execDiv
  rw [withOperands_eq_next, proceed_eq_next]
  simp only [State.finish_eq_next]

/-- What LW goes on to (R161). -/
theorem execLw_eq_next {rs rt : RegIdx} {offset : Imm19} {s t : State} :
    execLw rs rt offset s = .next t ↔
      s.Usable [rs, rt] ∧ s.Readable [rs] ∧
        ∃ v, s.loadWord (s.effAddr rs offset) = .ok v ∧ s.CanAdvance ∧ t = (s.afterReads [rs]).after rt v := by
  unfold execLw
  rw [withOperands_eq_next, proceed_eq_next]
  simp only [State.finish_eq_next, State.loadWord_afterReads, State.canAdvance_afterReads]

/-- What LB goes on to (R162). -/
theorem execLb_eq_next {rs rt : RegIdx} {offset : Imm19} {s t : State} :
    execLb rs rt offset s = .next t ↔
      s.Usable [rs, rt] ∧ s.Readable [rs] ∧
        ∃ b, s.loadByte (s.effAddr rs offset) = .ok b ∧ s.CanAdvance ∧
          t = (s.afterReads [rs]).after rt (s.extb b) := by
  unfold execLb
  rw [withOperands_eq_next, proceed_eq_next]
  simp only [State.finish_eq_next, State.loadByte_afterReads, State.canAdvance_afterReads]

/-- What SW goes on to (R163). -/
theorem execSw_eq_next {rs rt : RegIdx} {offset : Imm19} {s t : State} :
    execSw rs rt offset s = .next t ↔
      s.Usable [rs, rt] ∧ s.Readable [rs, rt] ∧ s.CanAdvance ∧ ∃ a, s.Places (s.effAddr rs offset) 4 a ∧ a % 4 = 0 ∧
        t = ((s.afterReads [rs, rt]).setDmem (s.dmem.setWord a (s.operand [rs] rt))).setPc (s.pc + 1) := by
  unfold execSw
  rw [withOperands_eq_next, proceed_eq_next]
  simp only [State.storeWord_eq_ok, State.advance_eq_next]
  constructor
  · rintro ⟨h, hr, v, ⟨a, ha, h4, rfl⟩, hc, rfl⟩
    exact ⟨h, hr, hc, a, ha, h4, rfl⟩
  · rintro ⟨h, hr, hc, a, ha, h4, rfl⟩
    exact ⟨h, hr, _, ⟨a, ha, h4, rfl⟩, hc, rfl⟩

/-- What a conditional branch goes on to (R150, R151). -/
theorem State.branchIf_eq_next {s t : State} {taken : Bool} {target : PcAddr} :
    s.branchIf taken target = .next t ↔
      (taken = true ∧ t = s.setPc target) ∨ (taken = false ∧ s.CanAdvance ∧ t = s.setPc (s.pc + 1)) := by
  unfold State.branchIf State.jumpTo
  cases taken
  · simp [State.advance_eq_next]
  · simp [eq_comm]

/-- Everything an instruction that goes on can have done: its used fields are usable and its sources readable, and, from
the state in which these have been read, it has either transferred control and changed `pc` alone, or it had room to
advance and has changed besides `pc` nothing (a branch not taken, NOP), its destination register (and, DIV alone, the
count of draws), or, SW alone, the four bytes it stores. -/
theorem exec_next_cases {i : Instr} {s t : State} (h : exec i s = .next t) :
    s.Usable (usedFields i) ∧ s.Readable (sources i) ∧
      ((s.transfers i = true ∧ destination i = none ∧ t = (s.afterReads (sources i)).setPc t.pc) ∨
        (s.transfers i = false ∧ s.CanAdvance ∧
          ((destination i = none ∧ (∀ rs rt offset, i ≠ .sw rs rt offset) ∧
              t = (s.afterReads (sources i)).setPc (s.pc + 1)) ∨
            (∃ rd v, destination i = some rd ∧ s.draws + s.drawsFor (sources i) ≤ t.draws ∧
              t = (s.setDraws t.draws).after rd v) ∨
            ∃ rs rt offset a, i = .sw rs rt offset ∧ s.Places (s.effAddr rs offset) 4 a ∧ a % 4 = 0 ∧
              t = ((s.afterReads [rs, rt]).setDmem (s.dmem.setWord a (s.operand [rs] rt))).setPc (s.pc + 1)))) := by
  cases i
  case add | sub | and | or | nor | mult =>
    simp only [exec, execAdd, execSub, execAnd, execOr, execNor, execMult] at h
    obtain ⟨hu, hr, hc, rfl⟩ := threeRegister_eq_next.mp h
    exact ⟨hu, hr, .inr ⟨rfl, hc, .inr (.inl ⟨_, _, rfl, le_rfl, rfl⟩)⟩⟩
  case sll | srl | addi =>
    simp only [exec, execSll, execSrl, execAddi, withOperands_eq_next, State.finish_eq_next] at h
    obtain ⟨hu, hr, hc, rfl⟩ := h
    exact ⟨hu, hr, .inr ⟨rfl, hc, .inr (.inl ⟨_, _, rfl, le_rfl, rfl⟩)⟩⟩
  case div =>
    obtain ⟨hu, hr, ⟨v, u⟩, hq, hc, rfl⟩ := execDiv_eq_next.mp h
    obtain ⟨hs, hd⟩ := State.quotient_state hq
    refine ⟨hu, hr, .inr ⟨rfl, ?_, .inr (.inl ⟨_, v, rfl, hd, ?_⟩)⟩⟩
    · rw [hs] at hc; exact hc
    · rw [hs]; rfl
  case beq | bne =>
    simp only [exec, execBeq, execBne, withOperands_eq_next, State.branchIf_eq_next] at h
    obtain ⟨hu, hr, ⟨ht, rfl⟩ | ⟨ht, hc, rfl⟩⟩ := h
    · exact ⟨hu, hr, .inl ⟨ht, rfl, rfl⟩⟩
    · exact ⟨hu, hr, .inr ⟨ht, hc, .inl ⟨rfl, by simp, rfl⟩⟩⟩
  case lw =>
    obtain ⟨hu, hr, v, -, hc, rfl⟩ := execLw_eq_next.mp h
    exact ⟨hu, hr, .inr ⟨rfl, hc, .inr (.inl ⟨_, _, rfl, le_rfl, rfl⟩)⟩⟩
  case lb =>
    obtain ⟨hu, hr, v, -, hc, rfl⟩ := execLb_eq_next.mp h
    exact ⟨hu, hr, .inr ⟨rfl, hc, .inr (.inl ⟨_, _, rfl, le_rfl, rfl⟩)⟩⟩
  case sw =>
    obtain ⟨hu, hr, hc, a, ha, h4, rfl⟩ := execSw_eq_next.mp h
    exact ⟨hu, hr, .inr ⟨rfl, hc, .inr (.inr ⟨_, _, _, a, rfl, ha, h4, rfl⟩)⟩⟩
  case j =>
    cases h
    exact ⟨fun _ => by simp [usedFields, sources, destination], fun _ => by simp [sources], .inl ⟨rfl, rfl, rfl⟩⟩
  case nop =>
    obtain ⟨hc, rfl⟩ := State.advance_eq_next.mp h
    exact ⟨fun _ => by simp [usedFields, sources, destination], fun _ => by simp [sources],
      .inr ⟨rfl, hc, .inl ⟨rfl, by simp, rfl⟩⟩⟩

end Sys2Proof.Machine
end

