-- ==== Sys2Proof/Laws/PerInstr.lean ====
section
/-! SUPPORT. Statements about every instruction as syntax, one lemma per constructor. -/

namespace Sys2Proof

/-- The operation code read from an instruction's word is the instruction's own (R80, R88), and a canonical instruction
is one the strict decoder accepts (R93, R94). -/
def Laws.OpcodeInWord.Statement (i : Instr) : Prop :=
  opcodeField (encode i) = i.opcode ∧ (i.WellFormed = true → i.strictAccepts = true)

theorem Laws.OpcodeInWord.add (rs rt rd : RegIdx) (shamt : Shamt) (funct : Funct) :
    Laws.OpcodeInWord.Statement (.add rs rt rd shamt funct) :=
  ⟨opcodeField_encodeR _ _ _ _ _ _, id⟩

theorem Laws.OpcodeInWord.sub (rs rt rd : RegIdx) (shamt : Shamt) (funct : Funct) :
    Laws.OpcodeInWord.Statement (.sub rs rt rd shamt funct) :=
  ⟨opcodeField_encodeR _ _ _ _ _ _, id⟩

theorem Laws.OpcodeInWord.and (rs rt rd : RegIdx) (shamt : Shamt) (funct : Funct) :
    Laws.OpcodeInWord.Statement (.and rs rt rd shamt funct) :=
  ⟨opcodeField_encodeR _ _ _ _ _ _, id⟩

theorem Laws.OpcodeInWord.or (rs rt rd : RegIdx) (shamt : Shamt) (funct : Funct) :
    Laws.OpcodeInWord.Statement (.or rs rt rd shamt funct) :=
  ⟨opcodeField_encodeR _ _ _ _ _ _, id⟩

theorem Laws.OpcodeInWord.nor (rs rt rd : RegIdx) (shamt : Shamt) (funct : Funct) :
    Laws.OpcodeInWord.Statement (.nor rs rt rd shamt funct) :=
  ⟨opcodeField_encodeR _ _ _ _ _ _, id⟩

theorem Laws.OpcodeInWord.sll (rs rt rd : RegIdx) (shamt : Shamt) (funct : Funct) :
    Laws.OpcodeInWord.Statement (.sll rs rt rd shamt funct) :=
  ⟨opcodeField_encodeR _ _ _ _ _ _, id⟩

theorem Laws.OpcodeInWord.srl (rs rt rd : RegIdx) (shamt : Shamt) (funct : Funct) :
    Laws.OpcodeInWord.Statement (.srl rs rt rd shamt funct) :=
  ⟨opcodeField_encodeR _ _ _ _ _ _, id⟩

theorem Laws.OpcodeInWord.mult (rs rt rd : RegIdx) (shamt : Shamt) (funct : Funct) :
    Laws.OpcodeInWord.Statement (.mult rs rt rd shamt funct) :=
  ⟨opcodeField_encodeR _ _ _ _ _ _, id⟩

theorem Laws.OpcodeInWord.div (rs rt rd : RegIdx) (shamt : Shamt) (funct : Funct) :
    Laws.OpcodeInWord.Statement (.div rs rt rd shamt funct) :=
  ⟨opcodeField_encodeR _ _ _ _ _ _, id⟩

theorem Laws.OpcodeInWord.beq (rs rt : RegIdx) (imm : Imm19) :
    Laws.OpcodeInWord.Statement (.beq rs rt imm) :=
  ⟨opcodeField_encodeI _ _ _ _, fun _ => rfl⟩

theorem Laws.OpcodeInWord.bne (rs rt : RegIdx) (imm : Imm19) :
    Laws.OpcodeInWord.Statement (.bne rs rt imm) :=
  ⟨opcodeField_encodeI _ _ _ _, fun _ => rfl⟩

theorem Laws.OpcodeInWord.lw (rs rt : RegIdx) (imm : Imm19) :
    Laws.OpcodeInWord.Statement (.lw rs rt imm) :=
  ⟨opcodeField_encodeI _ _ _ _, fun _ => rfl⟩

theorem Laws.OpcodeInWord.lb (rs rt : RegIdx) (imm : Imm19) :
    Laws.OpcodeInWord.Statement (.lb rs rt imm) :=
  ⟨opcodeField_encodeI _ _ _ _, fun _ => rfl⟩

theorem Laws.OpcodeInWord.sw (rs rt : RegIdx) (imm : Imm19) :
    Laws.OpcodeInWord.Statement (.sw rs rt imm) :=
  ⟨opcodeField_encodeI _ _ _ _, fun _ => rfl⟩

theorem Laws.OpcodeInWord.j (address : Addr27) :
    Laws.OpcodeInWord.Statement (.j address) :=
  ⟨opcodeField_encodeJ _ _, fun _ => rfl⟩

theorem Laws.OpcodeInWord.addi (rs rt : RegIdx) (imm : Imm19) :
    Laws.OpcodeInWord.Statement (.addi rs rt imm) :=
  ⟨opcodeField_encodeI _ _ _ _, fun _ => rfl⟩

theorem Laws.OpcodeInWord.nop (address : Addr27) :
    Laws.OpcodeInWord.Statement (.nop address) :=
  ⟨opcodeField_encodeJ _ _, fun _ => rfl⟩

end Sys2Proof
end

