-- ==== Sys2Proof/Tests/Slice0.lean ====
section
/-! SUPPORT. Tests. Expected results come from spec/95_test_vectors.md: words and their fields from sections 1.3, 2.8 and
2.9, steps from sections 2.1 to 2.8. The `witness_` theorems show a state and operands that meet the premises of an
obligation, one for each clause, at boundary values. -/

namespace Sys2Proof.Tests

open Sys2Proof.Machine

/-! ### Well-formedness: a canonical term of each kind, and an ill-formed one for each check (R93) -/

theorem test_wf_accepts :
    [Instr.add 7 9 5 0 0, .sll 0 7 5 2 0, .beq 2 3 1023, .lw 3 2 524287, .j 1023, .addi 7 5 9, .nop 0].all
      Instr.WellFormed = true := by decide

theorem test_wf_refuses_shamt :
    [Instr.add 7 9 5 3 0, .sub 7 9 5 3 0, .and 7 9 5 3 0, .or 7 9 5 3 0, .nor 7 9 5 3 0, .mult 7 9 5 3 0,
      .div 7 9 5 3 0].any Instr.WellFormed = false := by decide

theorem test_wf_refuses_funct :
    [Instr.add 7 9 5 0 1, .sub 7 9 5 0 1, .and 7 9 5 0 1, .or 7 9 5 0 1, .nor 7 9 5 0 1, .mult 7 9 5 0 1,
      .div 7 9 5 0 1, .sll 0 7 5 2 1, .srl 0 7 5 2 1].any Instr.WellFormed = false := by decide

theorem test_wf_refuses_rs_of_shift : [Instr.sll 15 7 5 2 0, .srl 15 7 5 2 0].any Instr.WellFormed = false := by decide

theorem test_wf_refuses_high_target :
    [Instr.beq 2 3 1124, .bne 2 3 2148, .j 1029, .nop 1].any Instr.WellFormed = false := by decide

/-! ### Decoding: a word of every constructor -/

theorem test_decode_add : decode 0b00000_0111_1001_0101_00000_0000000000 = .ok (.add 7 9 5 0 0) := by decide
theorem test_decode_sub : decode 0b00001_0111_1001_0101_00000_0000000000 = .ok (.sub 7 9 5 0 0) := by decide
theorem test_decode_and : decode 0b00010_0111_1001_0101_00000_0000000000 = .ok (.and 7 9 5 0 0) := by decide
theorem test_decode_or : decode 0b00011_0111_1001_0101_00000_0000000000 = .ok (.or 7 9 5 0 0) := by decide
theorem test_decode_nor : decode 0b00100_0111_1001_0101_00000_0000000000 = .ok (.nor 7 9 5 0 0) := by decide
theorem test_decode_sll : decode 0b00101_0000_0111_0101_00010_0000000000 = .ok (.sll 0 7 5 2 0) := by decide
theorem test_decode_srl : decode 0b00110_0000_0111_0101_00010_0000000000 = .ok (.srl 0 7 5 2 0) := by decide
theorem test_decode_mult : decode 0b00111_0111_1001_0101_00000_0000000000 = .ok (.mult 7 9 5 0 0) := by decide
theorem test_decode_div : decode 0b01000_0111_1001_0101_00000_0000000000 = .ok (.div 7 9 5 0 0) := by decide
theorem test_decode_beq : decode 0b01001_0010_0011_0000000000001100100 = .ok (.beq 2 3 100) := by decide
theorem test_decode_bne : decode 0b01010_0101_0111_0000000000001000000 = .ok (.bne 5 7 64) := by decide
theorem test_decode_lw : decode 0b01011_0011_0010_0000000000001100100 = .ok (.lw 3 2 100) := by decide
theorem test_decode_lb : decode 0b01100_0111_0101_0000000000100000000 = .ok (.lb 7 5 256) := by decide
theorem test_decode_sw : decode 0b01101_0011_0010_0000000000001100100 = .ok (.sw 3 2 100) := by decide
theorem test_decode_j : decode 0b01110_000000000000000000000000011 = .ok (.j 3) := by decide
theorem test_decode_addi : decode 0b01111_0111_0101_0000000000000001001 = .ok (.addi 7 5 9) := by decide
theorem test_decode_nop : decode 0b11111_000000000000000000000000000 = .ok (.nop 0) := by decide
theorem test_decode_unassigned :
    decode 0x80000000 = .error (.illegalOpcode 0x80000000) ∧ decode 0xF7FFFFFF = .error (.illegalOpcode 0xF7FFFFFF) := by
  decide
theorem test_decode_strict :
    decodeWord true 0x03CA8C00 = .error (.nonCanonical 0x03CA8C00) ∧
      decodeWord true 0x2FBA8800 = .error (.nonCanonical 0x2FBA8800) ∧ decodeWord true 0xFFFFFFFF = .ok (.nop 0x7FFFFFF) ∧
      decodeWord true 0x49180464 = .ok (.beq 2 3 1124) := by decide
theorem test_encode : encode (.sw 3 2 100) = 0x69900064 ∧ encode (.nop 0) = 0xF8000000 := by decide
theorem test_words_of_bytes : wordsOfBytes [0x03, 0xCA, 0x80, 0x00, 0xF8, 0, 0, 0, 1] = [0x03CA8000, 0xF8000000] := by
  decide
theorem test_table_word :
    decodeTableWord 32 0x5BA80100 = some (.lw 7 5 256) ∧ decodeTableWord 32 0xA8888000 = none := by decide
theorem test_statement_text :
    (Instr.lw 3 2 100).statementText = "LW R2, 100(R3)" ∧ (Instr.sll 0 7 5 2 0).statementText = "SLL R5, R7, #2" := by
  decide

/-! ### Steps -/

/-- A state with a word at `pc`, some registers written and some bytes of data memory. -/
def boot (p : Params) (w : Word) (pc : PcAddr) (regs : List (RegIdx × Word)) (bytes : Memory := []) : State :=
  regs.foldl (fun s c => s.setReg c.1 c.2) ((State.launch p [] bytes).setPc pc) |>.placeAtPc w

/-- A register and `pc` after a step that goes on. -/
def seen (r : RegIdx) (x : Result) : Option (Word × PcAddr) :=
  match x with
  | .next t => some (t.regs.get r.toFin, t.pc)
  | _ => none

/-- A byte of data memory after a step that goes on. -/
def byteSeen (a : Nat) (x : Result) : Option Byte :=
  match x with
  | .next t => cellRead t.dmem a
  | _ => none

/-- The fault of a step that faults. -/
def faultOf (x : Result) : Option Fault :=
  match x with
  | .fault f => some f
  | _ => none

/-- The spec's defaults with one parameter changed. -/
abbrev strictParams : Params := { specDefaults with strictDecode := true }
abbrev signParams : Params := { specDefaults with immExt := .sign, lbExt := .sign }
abbrev pcFaultParams : Params := { specDefaults with pcWrap := .fault }
abbrev unifiedParams : Params := { specDefaults with imemModel := .unified }
abbrev anyValueParams : Params := { specDefaults with unwritten := .anyValue }
abbrev wrapParams : Params := { specDefaults with outOfRange := .wrap }

theorem test_add_wraps_and_source_is_destination :
    seen 2 (step (boot specDefaults 0x01210000 8 [(2, 0xFFFFFFFF), (4, 1)])) = some (0, 9) := by decide
theorem test_add_to_zero_register_is_discarded :
    seen 0 (step (boot specDefaults 0x00900000 8 [(1, 5), (2, 6)])) = some (0, 9) := by decide
theorem test_sub_wraps : seen 5 (step (boot specDefaults 0x0BCA8000 8 [(7, 7), (9, 9)])) = some (0xFFFFFFFE, 9) := by
  decide
theorem test_and : seen 5 (step (boot specDefaults 0x13CA8000 8 [(7, 0xF0F0A5A5), (9, 0x0FF05A5A)])) =
    some (0x00F00000, 9) := by decide
theorem test_or : seen 5 (step (boot specDefaults 0x1BCA8000 8 [(7, 0xF0F0A5A5), (9, 0x0FF05A5A)])) =
    some (0xFFF0FFFF, 9) := by decide
theorem test_nor : seen 5 (step (boot specDefaults 0x23CA8000 8 [(7, 0xF0F0A5A5), (9, 0x0FF05A5A)])) =
    some (0x000F0000, 9) := by decide
theorem test_sll : seen 5 (step (boot specDefaults 0x283A8800 8 [(7, 0xC0000003)])) = some (0x0000000C, 9) := by decide
theorem test_sll_unused_rs_is_no_access :
    seen 5 (step (boot specDefaults 0x2FBA8800 8 [(7, 1)])) = some (4, 9) := by decide
theorem test_srl : seen 5 (step (boot specDefaults 0x303A8800 8 [(7, 0xC0000003)])) = some (0x30000000, 9) := by decide
theorem test_mult : seen 2 (step (boot specDefaults 0x39210000 8 [(2, 0x12345678), (4, 0x10)])) =
    some (0x23456780, 9) := by decide
theorem test_mult_minus_one : seen 5 (step (boot specDefaults 0x3BCA8000 8 [(7, 0xFFFFFFFF), (9, 0xFFFFFFFF)])) =
    some (1, 9) := by decide
theorem test_div : seen 2 (step (boot specDefaults 0x41210000 8 [(2, 0x64), (4, 7)])) = some (0xE, 9) := by decide
theorem test_div_undecided : faultOf (step (boot specDefaults 0x43CA8000 8 [(7, 7), (9, 0xFFFFFFFE)])) =
    some (.divideUndecided 7 0xFFFFFFFE) := by decide
theorem test_addi_imm_ext :
    seen 1 (step (boot specDefaults 0x790FFFFF 8 [(2, 0xA)])) = some (0x00080009, 9) ∧
      seen 1 (step (boot signParams 0x790FFFFF 8 [(2, 0xA)])) = some (9, 9) := by decide
theorem test_beq_taken_drops_high_bits :
    seen 2 (step (boot specDefaults 0x49180464 7 [(2, 5), (3, 5)])) = some (5, 100) := by decide
theorem test_beq_not_taken_wraps :
    seen 2 (step (boot specDefaults 0x49180064 1023 [(2, 5), (3, 6)])) = some (5, 0) := by decide
theorem test_bne_taken : seen 2 (step (boot specDefaults 0x51180864 7 [(2, 1), (3, 2)])) = some (1, 100) := by decide
theorem test_bne_not_taken : seen 2 (step (boot specDefaults 0x51180064 7 [(2, 5), (3, 5)])) = some (5, 8) := by decide
theorem test_lw_big_endian :
    seen 3 (step (boot specDefaults 0x59980000 8 [(3, 0x1064)]
      [(0x1064, 0xDE), (0x1065, 0xAD), (0x1066, 0xBE), (0x1067, 0xEF)])) = some (0xDEADBEEF, 9) := by decide
theorem test_lw_undefined_byte :
    faultOf (step (boot specDefaults 0x59900000 8 [(3, 0x3000)] [(0x3000, 1), (0x3001, 2)])) =
      some (.undefinedMemory 0x3002) := by decide
theorem test_lb_ext :
    seen 2 (step (boot specDefaults 0x61900066 8 [(3, 0x1000)] [(0x1066, 0x9C)])) = some (0x9C, 9) ∧
      seen 2 (step (boot signParams 0x61900066 8 [(3, 0x1000)] [(0x1066, 0x9C)])) = some (0xFFFFFF9C, 9) := by decide
theorem test_lb_whole_offset :
    seen 5 (step (boot specDefaults 0x63A80100 8 [(7, 0x2000)] [(0x2100, 0x7F)])) = some (0x7F, 9) := by decide
theorem test_sw_big_endian :
    [0x1064, 0x1065, 0x1066, 0x1067].map
      (fun a => byteSeen a (step (boot specDefaults 0x69900064 8 [(2, 0x12345678), (3, 0x1000)]))) =
      [some 0x12, some 0x34, some 0x56, some 0x78] := by decide
theorem test_sw_range_before_alignment :
    faultOf (step (boot specDefaults 0x69900001 8 [(2, 1), (3, 0x1FFFFC)])) = some (.addressOutOfRange 0x1FFFFD) ∧
      faultOf (step (boot specDefaults 0x69900002 8 [(2, 1), (3, 0x1000)])) = some (.misalignedAccess 0x1002) := by decide
theorem test_j_drops_high_bits : seen 0 (step (boot specDefaults 0x70000405 6 [])) = some (0, 5) := by decide
theorem test_j_all_ones : seen 0 (step (boot specDefaults 0x77FFFFFF 6 [])) = some (0, 1023) := by decide
theorem test_nop_low_bits : seen 1 (step (boot strictParams 0xFFFFFFFF 8 [(1, 5)])) = some (5, 9) := by decide
theorem test_nop_at_end : faultOf (step (boot pcFaultParams 0xF8000000 1023 [])) = some .pcOverflow := by decide
/-- RS is checked before RT, the reserved register before both, and an unwritten register before a zero divisor. -/
theorem test_unwritten_order :
    faultOf (step (boot specDefaults 0x69900000 8 [(2, 1)])) = some (.unwrittenRegister 3) ∧
      faultOf (step (boot specDefaults 0x00918000 8 [(1, 5)])) = some (.unwrittenRegister 2) ∧
      faultOf (step (boot specDefaults 0x07918000 8 [(2, 6)])) = some (.reservedRegister 15) ∧
      faultOf (step (boot specDefaults 0x43CA8000 8 [(9, 0)])) = some (.unwrittenRegister 7) := by decide
/-- Where an unwritten register reads as a value drawn afresh (R27), the instructions that fault in section 2.1 go on:
ADD writes the sum of R1 and a free value and counts one draw, a word that reads R2 twice counts two, and the first
instruction to write the register ends the draws. -/
theorem test_unwritten_any_value :
    exec (.add 1 2 3 0 0) (boot anyValueParams 0 8 [(1, 5)]) =
        .next ((boot anyValueParams 0 8 [(1, 5)]).setDraws 1 |>.after 3 (5 + Config.freeWord 0)) ∧
      exec (.sub 2 2 3 0 0) (boot anyValueParams 0 8 []) =
        .next ((boot anyValueParams 0 8 []).setDraws 2 |>.after 3 (Config.freeWord 0 - Config.freeWord 1)) ∧
      ((boot anyValueParams 0 8 []).after 3 7).operand [] 3 = 7 := ⟨rfl, rfl, rfl⟩
/-- A program in data memory: SW overwrites the next instruction, and the step after it runs the stored one. -/
theorem test_unified_store_changes_program :
    seen 3 (Sys2Proof.core.run 2 (boot unifiedParams 0x68100024 8 [(2, 0x78180007)])) = some (7, 10) := by decide
theorem test_unified_places_big_endian :
    (boot unifiedParams 0x78080005 8 []).dmem = [(32, 0x78), (33, 0x08), (34, 0x00), (35, 0x05)] ∧
      seen 1 (step (boot unifiedParams 0x78080005 8 [])) = some (5, 9) := by decide
theorem test_short_instruction_memory :
    faultOf (step (boot { specDefaults with imemWords := 8 } 0xF8000000 8 [])) = some (.illegalOpcode none) := by decide
theorem test_completed_at_named_address :
    (boot { specDefaults with endOfRun := .reaches 8 } 0xF8000000 8 []).completed = true ∧
      (boot { specDefaults with endOfRun := .reaches 9 } 0xF8000000 8 []).completed = false := by decide
theorem test_branch_without_nops_is_not_padded :
    State.branchesPadded.nopsFollow (boot { specDefaults with hazardNops := 1 } 0x49180064 8 []) 8 = false ∧
      State.branchesPadded.nopsFollow (boot { specDefaults with hazardNops := 1 } 0xF8000000 9 []) 8 = true := by
  decide
theorem test_hazard_spaced :
    hazardSpaced 0 1 [.addi 0 1 5, .add 1 1 2 0 0] = false ∧
      hazardSpaced 0 1 [.addi 0 1 5, .nop 0, .add 1 1 2 0 0] = true := by decide
theorem test_reset_runs_placed_word :
    seen 1 (step (State.reset.withFetchWord 32 0x78080005)) = some (5, 1) := by decide

/-! ### Witnesses: register instructions -/

/-- R7 = 7, R9 = 9, at pc 8 with an ADD there, under the defaults. -/
abbrev plain : State := boot specDefaults 0x03CA8000 8 [(7, 7), (9, 9)]
/-- The same registers under the parameters of the reset state, at pc 1023. -/
abbrev atEnd : State := boot launchParams 0x03CA8000 1023 [(7, 7), (9, 9)]

theorem witness_AddWritesSum :
    plain.Usable [7, 9, 5] ∧ plain.Readable [7, 9] ∧ plain.CanAdvance ∧ atEnd.Usable [15, 15, 15] ∧
      atEnd.Readable [15, 15] ∧ atEnd.CanAdvance := by decide
theorem witness_SubWritesDifference : plain.Usable [7, 9, 0] ∧ plain.Readable [7, 9] ∧ plain.CanAdvance := by decide
theorem witness_LogicWritesBitwise : plain.Usable [7, 0, 14] ∧ plain.Readable [7, 0] ∧ plain.CanAdvance := by decide
theorem witness_ShiftsWriteProductAndQuotient : plain.Usable [7, 5] ∧ plain.Readable [7] ∧ plain.CanAdvance := by decide
theorem witness_MultWritesLowProduct : plain.Usable [7, 9, 5] ∧ plain.Readable [7, 9] ∧ plain.CanAdvance := by decide
/-- The largest dividend and divisor of the agreement domain, and the least divisor. -/
theorem witness_DivWritesQuotientOnAgreementDomain :
    let s := boot specDefaults 0x43CA8000 8 [(7, 0x7FFFFFFF), (9, 0x7FFFFFFF), (1, 1)]
    s.Usable [7, 9, 5] ∧ s.Readable [7, 9] ∧ s.Readable [7, 1] ∧ s.CanAdvance ∧ s.operand [7] 9 ≠ 0 ∧ s.operand [7] 1 ≠ 0 ∧ (s.operand [] 7).toNat < 2 ^ 31 ∧
      (s.operand [7] 9).toNat < 2 ^ 31 := by decide
/-- The least dividend and the least divisor outside it, where `DIV_FN` is supplied and where it is not. -/
theorem witness_DivOutsideAgreementDomain :
    let s := boot launchParams 0x43CA8000 8 [(7, 0x80000000), (9, 1)]
    let u := boot specDefaults 0x43CA8000 8 [(7, 0), (9, 0x80000000)]
    (s.Usable [7, 9, 5] ∧ s.Readable [7, 9] ∧ s.operand [7] 9 ≠ 0 ∧ ¬((s.operand [] 7).toNat < 2 ^ 31 ∧ (s.operand [7] 9).toNat < 2 ^ 31) ∧
      s.params.divFn = .supplied ∧ s.CanAdvance) ∧
    (u.Usable [7, 9, 5] ∧ u.Readable [7, 9] ∧ u.operand [7] 9 ≠ 0 ∧ ¬((u.operand [] 7).toNat < 2 ^ 31 ∧ (u.operand [7] 9).toNat < 2 ^ 31) ∧
      u.params.divFn = .unsupplied) := by decide
theorem witness_DivByZeroFollowsPolicy :
    (plain.Usable [7, 0, 5] ∧ plain.Readable [7, 0] ∧ plain.operand [7] 0 = 0 ∧ plain.params.divZero = .fault) ∧
      (atEnd.Usable [7, 2, 5] ∧ atEnd.Readable [7, 2] ∧ atEnd.operand [7] 2 = 0 ∧ atEnd.params.divZero = .anyValue ∧ atEnd.CanAdvance) := by decide
theorem witness_AddiWritesSum :
    (plain.Usable [7, 5] ∧ plain.Readable [7] ∧ plain.CanAdvance ∧ plain.params.immExt = .zero) ∧
      (let s := boot signParams 0x790FFFFF 8 [(2, 0xA)]
       s.Usable [2, 1] ∧ s.Readable [2] ∧ s.CanAdvance ∧ s.params.immExt = .sign) := by decide
theorem witness_ExtensionsWiden :
    plain.params.immExt = .zero ∧ plain.params.lbExt = .zero ∧ (boot signParams 0 0 []).params.immExt = .sign ∧
      (boot signParams 0 0 []).params.lbExt = .sign ∧ (0x3FFFF : Imm19).toNat < 2 ^ 18 ∧ (0x7F : Byte).toNat < 2 ^ 7 := by
  decide

/-! ### Witnesses: control flow -/

/-- Equal registers 2 and 3, register 4 different in one bit. -/
abbrev branching : State := boot specDefaults 0x49180064 7 [(2, 0x80000000), (3, 0x80000000), (4, 0)]

theorem witness_TakenBranchesGoToTarget :
    branching.Usable [2, 3] ∧ branching.Readable [2, 3] ∧ branching.Readable [2, 4] ∧ branching.operand [] 2 = branching.operand [2] 3 ∧ branching.Usable [2, 4] ∧
      branching.operand [] 2 ≠ branching.operand [2] 4 := by decide
theorem witness_UntakenBranchesAdvance :
    branching.CanAdvance ∧ branching.Readable [2, 3] ∧ branching.Readable [2, 4] ∧ branching.Usable [2, 4] ∧ branching.operand [] 2 ≠ branching.operand [2] 4 ∧
      branching.Usable [2, 3] ∧ branching.operand [] 2 = branching.operand [2] 3 := by decide
theorem witness_NopOnlyAdvances : atEnd.CanAdvance ∧ (boot pcFaultParams 0xF8000000 1022 []).CanAdvance := by decide
theorem witness_ProgramCounterFollowsInstruction :
    exec (.j 3) plain = .next { plain with pc := 3 } ∧ exec (.beq 2 3 100) branching = .next { branching with pc := 100 } ∧
      exec (.bne 2 3 100) branching = .next { branching with pc := 8 } ∧
      exec (.nop 0) plain = .next { plain with pc := 9 } := ⟨rfl, rfl, rfl, rfl⟩
/-- At `pc` = 1023 under both settings; the same state goes on under `PC_WRAP = wrap`. -/
theorem witness_ProgramCounterAtItsUpperEnd :
    let s := boot pcFaultParams 0xF8000000 1023 []
    (atEnd.pc = 1023 ∧ atEnd.transfers (.nop 0) = false ∧ atEnd.params.pcWrap = .wrap ∧
      exec (.nop 0) atEnd = .next { atEnd with pc := 0 }) ∧
    (s.pc = 1023 ∧ s.transfers (.nop 0) = false ∧ s.params.pcWrap = .fault ∧
      ∃ t, exec (.nop 0) { s with params := { s.params with pcWrap := .wrap } } = .next t) :=
  ⟨⟨rfl, rfl, rfl, rfl⟩, rfl, rfl, rfl, _, rfl⟩
theorem witness_PcOverflowOnlyAtUpperEnd :
    let s := boot pcFaultParams 0xF8000000 1023 []
    exec (.nop 0) s = .fault .pcOverflow ∧ s.params.pcWrap = .fault ∧ s.pc = 1023 ∧ s.transfers (.nop 0) = false :=
  ⟨rfl, rfl, rfl, rfl⟩
theorem witness_CompletedRunStays :
    (boot specDefaults 0x70000006 6 []).params.endOfRun = .selfJump ∧
      (boot specDefaults 0x70000006 6 []).completed = true := by decide

/-! ### Witnesses: encoding and the step -/

theorem witness_DecodeReadsBackEveryEncoding : (Instr.lw 3 2 524287).WellFormed = true := by decide
theorem witness_EncodeReproducesDecodedWord : decode 0xFFFFFFFF = .ok (.nop 0x7FFFFFF) := by decide
theorem witness_StepRunsDecodedInstruction :
    plain.instrWord plain.pc = some 0x03CA8000 ∧
      decodeWord plain.params.strictDecode 0x03CA8000 = .ok (.add 7 9 5 0 0) := by decide
theorem witness_IllegalOpcodeExactly :
    step State.reset = .fault (.illegalOpcode none) ∧
      step (boot specDefaults 0x80000000 8 []) = .fault (.illegalOpcode (some 0x80000000)) ∧
      step (boot specDefaults 0xF7FFFFFF 8 []) = .fault (.illegalOpcode (some 0xF7FFFFFF)) := ⟨rfl, rfl, rfl⟩
theorem witness_NonCanonicalExactlyWhenStrict :
    step (boot strictParams 0x03CA8001 8 []) = .fault (.nonCanonicalEncoding 0x03CA8001) ∧
      step (boot strictParams 0x2FBA8800 8 []) = .fault (.nonCanonicalEncoding 0x2FBA8800) := ⟨rfl, rfl⟩

/-! ### Witnesses: loads and stores -/

/-- R3 holds the address of the highest word, whose bytes are 1 to 4. -/
abbrev highest : State := boot specDefaults 0x59900000 8 [(2, 0xA5A5A5A5), (3, 0x1FFFFC)]
  [(0x1FFFFC, 1), (0x1FFFFD, 2), (0x1FFFFE, 3), (0x1FFFFF, 4)]
/-- R3 holds the first address outside the space, under `OUT_OF_RANGE = wrap`; addresses 0 to 3 hold 1 to 4. -/
abbrev outside : State := boot wrapParams 0x59900000 8 [(2, 0xA5A5A5A5), (3, 0x200000)] [(0, 1), (1, 2), (2, 3), (3, 4)]

theorem witness_EffectiveAddressIsBasePlusOffset :
    highest.params.immExt = .zero ∧ (boot signParams 0 0 []).params.immExt = .sign := by decide
theorem witness_LoadWordWritesFourBytes :
    (highest.Usable [3, 2] ∧ highest.Readable [3, 2] ∧ highest.CanAdvance ∧ highest.Places (highest.effAddr 3 0) 4 0x1FFFFC ∧ 0x1FFFFC % 4 = 0 ∧
      cellRead highest.dmem 0x1FFFFC = some 1 ∧ cellRead highest.dmem 0x1FFFFD = some 2 ∧
      cellRead highest.dmem 0x1FFFFE = some 3 ∧ cellRead highest.dmem 0x1FFFFF = some 4) ∧
    (outside.Usable [3, 2] ∧ outside.Readable [3, 2] ∧ outside.CanAdvance ∧ outside.Places (outside.effAddr 3 0) 4 0 ∧
      cellRead outside.dmem 0 = some 1 ∧ cellRead outside.dmem 1 = some 2 ∧ cellRead outside.dmem 2 = some 3 ∧
      cellRead outside.dmem 3 = some 4) := ⟨by decide, by decide⟩
theorem witness_LoadByteWritesWidenedByte :
    (highest.Usable [3, 2] ∧ highest.Readable [3, 2] ∧ highest.CanAdvance ∧ highest.Places (highest.effAddr 3 3) 1 0x1FFFFF ∧
      cellRead highest.dmem 0x1FFFFF = some 4 ∧ highest.params.lbExt = .zero) ∧
    (let s := boot signParams 0x61900066 8 [(3, 0x1000)] [(0x1066, 0x80)]
     s.Usable [3, 2] ∧ s.Readable [3] ∧ s.CanAdvance ∧ s.Places (s.effAddr 3 102) 1 0x1066 ∧ cellRead s.dmem 0x1066 = some 0x80 ∧
      s.params.lbExt = .sign) := by decide
theorem witness_StoreWordWritesFourBytes :
    (highest.Usable [3, 2] ∧ highest.Readable [3, 2] ∧ highest.CanAdvance ∧ highest.Places (highest.effAddr 3 0) 4 0x1FFFFC) ∧
      (outside.Usable [3, 2] ∧ outside.Readable [3, 2] ∧ outside.CanAdvance ∧ outside.Places (outside.effAddr 3 0) 4 0) := by decide
theorem witness_ByteLoadsSeeStoredWordBigEndian :
    (∃ t, highest.storeWord 0x1FFFFC 0x12345678 = .ok t) ∧ ∃ t, outside.storeWord 0x200000 0x12345678 = .ok t :=
  ⟨⟨_, rfl⟩, _, rfl⟩
theorem witness_WordInMemoryIsBigEndian :
    0x1FFFFC % 4 = 0 ∧ cellRead highest.dmem 0x1FFFFC = some 1 ∧ cellRead highest.dmem 0x1FFFFD = some 2 ∧
      cellRead highest.dmem 0x1FFFFE = some 3 ∧ cellRead highest.dmem 0x1FFFFF = some 4 := by decide
/-- Loaded through the zero register, where the store went through R3 or wrapped. -/
theorem witness_LoadAfterStoreReturnsStoredWord :
    (let s := boot specDefaults 0x69900000 8 [(2, 0xA5A5A5A5), (3, 0x1000)]
     ∃ t, exec (.sw 3 2 0) s = .next t ∧ s.Places (s.effAddr 3 0) 4 0x1000 ∧ t.Places (t.effAddr 0 0x1000) 4 0x1000 ∧
      t.Usable [0, 5] ∧ t.Readable [0] ∧ t.CanAdvance) ∧
    ∃ t, exec (.sw 3 2 0) outside = .next t ∧ outside.Places (outside.effAddr 3 0) 4 0 ∧
      t.Places (t.effAddr 0 0) 4 0 ∧ t.Usable [0, 5] ∧ t.Readable [0] ∧ t.CanAdvance :=
  ⟨⟨_, rfl, by decide, by decide, by decide, by decide, by decide⟩,
    _, rfl, by decide, by decide, by decide, by decide, by decide⟩
/-- The first addresses whose last byte is outside: of a word 0x1FFFFD, of a byte 0x200000. -/
theorem witness_AddressOutOfRangeExactly :
    exec (.lw 3 2 1) highest = .fault (.addressOutOfRange 0x1FFFFD) ∧
      exec (.sw 3 2 1) highest = .fault (.addressOutOfRange 0x1FFFFD) ∧
      exec (.lb 3 2 4) highest = .fault (.addressOutOfRange 0x200000) := ⟨rfl, rfl, rfl⟩
theorem witness_MisalignedAccessExactly :
    exec (.lw 0 2 1) highest = .fault (.misalignedAccess 1) ∧ exec (.sw 0 2 3) highest = .fault (.misalignedAccess 3) ∧
      exec (.lw 3 2 2) outside = .fault (.misalignedAccess 2) := ⟨rfl, rfl, rfl⟩
theorem witness_UndefinedMemoryExactly :
    exec (.lw 0 2 0) highest = .fault (.undefinedMemory 0) ∧ exec (.lb 3 2 4) outside = .fault (.undefinedMemory 4) :=
  ⟨rfl, rfl⟩

/-! ### Witnesses: the other faults, frames and the invariant -/

theorem witness_ReservedRegisterExactly :
    exec (.add 1 2 15 0 0) plain = .fault (.reservedRegister 15) ∧ exec (.sw 15 2 0) plain = .fault (.reservedRegister 15) :=
  ⟨rfl, rfl⟩
theorem witness_UnwrittenRegisterExactly :
    exec (.sw 3 2 0) (boot specDefaults 0 8 [(2, 1)]) = .fault (.unwrittenRegister 3) ∧
      exec (.sw 3 2 0) (boot specDefaults 0 8 [(3, 1)]) = .fault (.unwrittenRegister 2) ∧
      exec (.beq 0 14 0) (boot specDefaults 0 8 []) = .fault (.unwrittenRegister 14) := ⟨rfl, rfl, rfl⟩
/-- An unwritten register of each end of the numbering, the zero register and a written one, where a read draws; and a
policy under which none does. -/
theorem witness_UnwrittenReadsDrawAfresh :
    let s := boot anyValueParams 0 8 [(7, 7)]
    (s.params.unwritten = .anyValue ∧ s.Usable [1, 14, 0] ∧ s.Usable [1, 1, 5] ∧ s.CanAdvance ∧
      (1 : RegIdx) ≠ s.params.zeroReg ∧ (14 : RegIdx) ≠ s.params.zeroReg ∧ s.written.get (1 : RegIdx).toFin = false ∧
      s.written.get (14 : RegIdx).toFin = false ∧ s.written.get (7 : RegIdx).toFin = true) ∧
    plain.params.unwritten ≠ .anyValue := by decide
theorem witness_WrittenRegistersAreThoseGivenResults :
    exec (.add 7 9 5 0 0) plain = .next (plain.after 5 16) ∧ (5 : RegIdx) ≠ plain.params.zeroReg ∧
      plain.written.get (5 : RegIdx).toFin = false ∧ (plain.after 5 16).written.get (5 : RegIdx).toFin = true :=
  ⟨rfl, by decide, rfl, rfl⟩
theorem witness_InstructionWordFollowsImemModel :
    (plain.pc.toNat < plain.params.imemWords ∧ plain.params.imemModel = .separate) ∧
      (let s := boot unifiedParams 0x78080005 1023 []
       s.pc.toNat < s.params.imemWords ∧ s.params.imemModel = .unified ∧ s.instrWord 1023 = some 0x78080005) ∧
      (let s := boot { specDefaults with imemWords := 8 } 0 8 []
       s.params.imemWords ≤ s.pc.toNat) := by decide
theorem witness_DivideFaultsExactly :
    exec (.div 7 0 0 0 0) plain = .fault .divideByZero ∧
      exec (.div 2 1 5 0 0) (boot specDefaults 0 8 [(2, 0x80000000), (1, 1)]) =
        .fault (.divideUndecided 0x80000000 1) := ⟨rfl, rfl⟩
theorem witness_OnlyDestinationRegisterChanges :
    exec (.add 7 9 5 0 0) plain = .next (plain.after 5 16) ∧ destination (.add 7 9 5 0 0) ≠ some 7 := ⟨rfl, by decide⟩
/-- Two states that differ in R1 only, which ADD R5, R7, R9 does not read; ADD R5, R7, R2 faults in both. -/
theorem witness_OutcomeDependsOnSourcesOnly :
    let s' := boot specDefaults 0x03CA8000 8 [(7, 7), (9, 9), (1, 3)]
    s' ≠ plain ∧ s' = { plain with regs := s'.regs, written := s'.written } ∧
      (∀ r ∈ sources (.add 7 9 5 0 0), s'.readReg r = plain.readReg r ∧
        s'.written.get r.toFin = plain.written.get r.toFin) ∧
      exec (.add 7 9 5 0 0) plain = .next (plain.after 5 16) ∧
      (∀ r ∈ sources (.add 7 2 5 0 0), s'.readReg r = plain.readReg r ∧
        s'.written.get r.toFin = plain.written.get r.toFin) ∧
      exec (.add 7 2 5 0 0) plain = .fault (.unwrittenRegister 2) := by
  exact ⟨by decide, rfl, by decide, rfl, by decide, rfl⟩
theorem witness_OnlyStoreWordChangesMemory :
    (∃ t, exec (.lw 3 2 0) highest = .next t) ∧ ∀ rs rt offset, Instr.lw 3 2 0 ≠ .sw rs rt offset :=
  ⟨⟨_, rfl⟩, fun _ _ _ => Instr.noConfusion⟩
theorem witness_StepKeepsProgramAndParameters : (∃ t, step plain = .next t) ∧ plain.params.imemModel = .separate :=
  ⟨⟨_, rfl⟩, rfl⟩
theorem witness_FreeValuesDrawnExactly :
    (∃ t, exec (.div 7 2 5 0 0) atEnd = .next t) ∧ atEnd.operand [7] 2 = 0 ∧
      atEnd.params.unwritten ≠ .anyValue ∧ (∃ t, exec (.nop 0) atEnd = .next t) ∧
      ∃ t, exec (.add 1 2 3 0 0) (boot anyValueParams 0 8 []) = .next t :=
  ⟨⟨_, rfl⟩, rfl, by decide, ⟨_, rfl⟩, _, rfl⟩
theorem witness_WriteToZeroRegisterIsDiscarded :
    destination (.add 7 9 0 0 0) = some plain.params.zeroReg ∧ ∃ t, exec (.add 7 9 0 0 0) plain = .next t :=
  ⟨by decide, _, rfl⟩
/-- A state with data in memory, and a store from it. -/
theorem witness_StepKeepsInvariant :
    let s := { highest with imem := [(8, 0x69900000)] }
    s.Inv ∧ ∃ t, step s = .next t := ⟨by decide, _, rfl⟩

end Sys2Proof.Tests
end

