-- ==== Sys2Proof/Proofs/Scope.lean ====
section
/-! What spec/00_scope.md fixes for the whole model: the step as fetch and then the instruction's rule (R16), the
widenings (R13) and the defaults of a launch (R7). -/

namespace Sys2Proof.Machine

/-! ### The step (R16) -/

/-- Where the fetch answers an instruction, the step is that instruction's rule, whatever its outcome. -/
theorem step_of_fetch {s : State} {i : Instr} (h : s.fetch = .ok i) : step s = exec i s := by
  simp only [step, h]

/-- Settles O7: the word at `pc` decodes, so the fetch answers the instruction. -/
theorem stepRunsDecodedInstruction : Obligations.StepRunsDecodedInstruction :=
  fun _ w _ hword hdecode => step_of_fetch (State.fetch_eq_ok.mpr ⟨w, hword, hdecode⟩)

/-! ### The widenings (R13) -/

variable {n : Nat}

/-- `zext_32` keeps the unsigned value. -/
theorem toNat_widen_zero (hn : n ≤ 32) (v : BitVec n) : (widen .zero v).toNat = v.toNat :=
  BitVec.toNat_setWidth_of_le hn

/-- `sext_32` keeps the signed value. -/
theorem toInt_widen_sign (hn : n ≤ 32) (v : BitVec n) : (widen .sign v).toInt = v.toInt :=
  BitVec.toInt_signExtend_of_le hn

/-- The setting does not matter to a value whose top bit is clear: sign extension then fills with zeros. -/
theorem widen_eq_widen_zero {v : BitVec n} (hv : v.msb = false) (ext : Extension) : widen ext v = widen .zero v := by
  cases ext with
  | zero => rfl
  | sign => exact BitVec.signExtend_eq_setWidth_of_msb_false hv

/-- Below `2^(n-1)`, half the range of the shorter value, every setting keeps the unsigned value. -/
theorem toNat_widen_of_lt_half (hn : n ≤ 32) {v : BitVec n} (hv : 2 * v.toNat < 2 ^ n) (ext : Extension) :
    (widen ext v).toNat = v.toNat := by
  rw [widen_eq_widen_zero (BitVec.msb_eq_false_iff_two_mul_lt.mpr hv), toNat_widen_zero hn]

/-- Settles O20: `ext19` and `extb` are `widen` at widths 19 and 8. -/
theorem extensionsWiden : Obligations.ExtensionsWiden := by
  intro s imm b
  unfold State.ext19 State.extb
  refine ⟨fun h => ?_, fun h => ?_, fun h => ?_, fun h => ?_, fun h => ?_, fun h => ?_⟩
  · rw [h, toNat_widen_zero (by decide)]
  · rw [h, toInt_widen_sign (by decide)]
  · rw [h, toNat_widen_zero (by decide)]
  · rw [h, toInt_widen_sign (by decide)]
  · exact toNat_widen_of_lt_half (by decide) (by omega) _
  · exact toNat_widen_of_lt_half (by decide) (by omega) _

/-! ### The defaults of a launch (R7, R27) -/

/-- A launch holds the parameters it is given, and no other. -/
@[simp] theorem State.launch_params (p : Params) (imem : InstrMemory) (dmem : Memory) :
    (State.launch p imem dmem).params = p := rfl

/-- Settles O54: the launch without arguments takes `specDefaults`, each of whose fields is the default written in
`Params`. -/
theorem launchTakesSpecDefaults : Obligations.LaunchTakesSpecDefaults :=
  ⟨State.launch_params _ _ _, rfl, rfl, rfl, rfl, rfl, rfl, rfl, rfl, rfl, rfl, rfl, rfl, rfl, rfl⟩

end Sys2Proof.Machine
end

