-- ==== Sys2Proof/Proofs/State.lean ====
section
/-! What spec/10_state.md says of registers, `pc`, memories and reset: the phases every instruction goes through, and
from them what an instruction reads, what it changes, what it leaves alone and what it depends on. -/

namespace Sys2Proof.Machine

/-! ### The phases of an instruction (R16, R201)

Every instruction is the same four phases: its register fields and sources are checked, its operands are read, an effect
is computed from them, and the effect is committed and `pc` set. -/

/-- The operands an instruction reads, RS before RT; 0 stands for one it does not read. -/
def State.operands (s : State) (i : Instr) : Word × Word :=
  match sources i with
  | [] => (0, 0)
  | [r] => (s.operand [] r, 0)
  | r :: r' :: _ => (s.operand [] r, s.operand [r] r')

/-- What an instruction has computed, before it changes register or `pc`: the value for its destination, the contents of
data memory, and the number of values drawn. -/
structure Effect where
  value : Word
  dmem : Memory
  draws : Nat

/-- The effect that gives the destination a value and touches nothing else. -/
def State.giving (u : State) (v : Word) : Effect := ⟨v, u.dmem, u.draws⟩

/-- The effect of an instruction on its operands `x`, in the state in which these have been read. -/
def effect (i : Instr) (x : Word × Word) (u : State) : Except Fault Effect :=
  match i with
  | .add .. => .ok (u.giving (x.1 + x.2))
  | .sub .. => .ok (u.giving (x.1 - x.2))
  | .and .. => .ok (u.giving (x.1 &&& x.2))
  | .or .. => .ok (u.giving (x.1 ||| x.2))
  | .nor .. => .ok (u.giving (~~~(x.1 ||| x.2)))
  | .sll _ _ _ shamt _ => .ok (u.giving (x.1 <<< shamt.toNat))
  | .srl _ _ _ shamt _ => .ok (u.giving (x.1 >>> shamt.toNat))
  | .mult .. => .ok (u.giving (x.1 * x.2))
  | .div .. => (u.quotient x.1 x.2).map fun q => q.2.giving q.1
  | .addi _ _ imm => .ok (u.giving (x.1 + u.ext19 imm))
  | .lw _ _ offset => (u.loadWord (x.1 + u.ext19 offset)).map u.giving
  | .lb _ _ offset => (u.loadByte (x.1 + u.ext19 offset)).map fun b => u.giving (u.extb b)
  | .sw _ _ offset => (u.place (x.1 + u.ext19 offset) .word).map fun a => ⟨0, u.dmem.setWord a x.2, u.draws⟩
  | .beq .. | .bne .. | .j .. | .nop .. => .ok (u.giving 0)

/-- Where an instruction goes that transfers control on its operands `x`; `none` where it goes on at `pc + 1` (R29). -/
def target (i : Instr) (x : Word × Word) : Option PcAddr :=
  match i with
  | .j address => some (jumpTarget address)
  | .beq _ _ offset => if x.1 == x.2 then some (branchTarget offset) else none
  | .bne _ _ offset => if x.1 != x.2 then some (branchTarget offset) else none
  | _ => none

/-- The state with an effect in it: memory, count of draws, and the destination where there is one. -/
def State.commit (u : State) (d : Option RegIdx) (e : Effect) : State :=
  let w : State := { u with dmem := e.dmem, draws := e.draws }
  match d with
  | none => w
  | some r => w.writeReg r e.value

/-- `pc` set to the target, or one higher where there is none. -/
def State.leave (u : State) (p : Option PcAddr) : Result :=
  match p with
  | none => u.advance
  | some a => u.jumpTo a

/-- Going on from a computed value is going on from what it was computed from. -/
theorem proceed_map {α β : Type} (r : Except Fault α) (f : α → β) (k : β → Result) :
    proceed (r.map f) k = proceed r fun v => k (f v) := by
  cases r <;> rfl

/-- A store is the place of its access, and data memory with the word there (R57). -/
theorem State.storeWord_eq_map (s : State) (ea v : Word) :
    s.storeWord ea v = (s.place ea .word).map fun a => s.setDmem (s.dmem.setWord a v) := by
  unfold State.storeWord
  cases s.place ea .word <;> rfl

/-- A quotient committed to its destination is the result DIV writes: the quotient's state differs in the count of draws
alone. -/
theorem proceed_quotient_finish (u : State) (rd : RegIdx) (a b : Word) :
    proceed (u.quotient a b) (fun q => q.2.finish rd q.1) =
      proceed (u.quotient a b) fun q => (u.commit (some rd) (q.2.giving q.1)).leave none := by
  cases hq : u.quotient a b with
  | error f => rfl
  | ok q =>
    show q.2.finish rd q.1 = (u.commit (some rd) (q.2.giving q.1)).leave none
    rw [(State.quotient_state hq).1]
    rfl

/-- A branch leaves for its target where it is taken. -/
theorem State.branchIf_eq_leave (u : State) (taken : Bool) (a : PcAddr) :
    u.branchIf taken a = u.leave (if taken then some a else none) := by
  cases taken <;> rfl

/-- Every instruction is its phases, in the order of R201. -/
theorem exec_eq_phases (i : Instr) (s : State) :
    exec i s = withOperands s (usedFields i) (sources i) fun u =>
      proceed (effect i (s.operands i) u) fun e => (u.commit (destination i) e).leave (target i (s.operands i)) := by
  cases i
  case add | sub | and | or | nor | sll | srl | mult | addi | j | nop => rfl
  case div => simp only [exec, execDiv, proceed_quotient_finish, effect, proceed_map]; rfl
  case lw | lb => simp only [effect, proceed_map]; rfl
  case sw => simp only [exec, execSw, State.storeWord_eq_map, effect, proceed_map]; rfl
  case beq | bne => simp only [exec, execBeq, execBne, State.branchIf_eq_leave]; rfl

theorem State.leave_eq_next {u t : State} {p : Option PcAddr} :
    u.leave p = .next t ↔ (p = none → u.CanAdvance) ∧ t = u.setPc (p.getD (u.pc + 1)) := by
  cases p with
  | none => simp [State.leave, State.advance_eq_next]
  | some a => simp [State.leave, State.jumpTo, eq_comm]

theorem State.leave_eq_fault {u : State} {p : Option PcAddr} {f : Fault} :
    u.leave p = .fault f ↔ p = none ∧ (u.params.pcWrap = .fault ∧ u.pc = 1023) ∧ f = .pcOverflow := by
  cases p with
  | none => simp [State.leave, State.advance_eq_fault]
  | some a => simp [State.leave, State.jumpTo]

@[simp] theorem State.commit_pc (u : State) (d : Option RegIdx) (e : Effect) : (u.commit d e).pc = u.pc := by
  cases d <;> simp [State.commit]
@[simp] theorem State.commit_params (u : State) (d : Option RegIdx) (e : Effect) :
    (u.commit d e).params = u.params := by
  cases d <;> simp [State.commit]
@[simp] theorem State.commit_imem (u : State) (d : Option RegIdx) (e : Effect) : (u.commit d e).imem = u.imem := by
  cases d <;> simp [State.commit]
@[simp] theorem State.commit_dmem (u : State) (d : Option RegIdx) (e : Effect) : (u.commit d e).dmem = e.dmem := by
  cases d <;> simp [State.commit]
@[simp] theorem State.commit_draws (u : State) (d : Option RegIdx) (e : Effect) :
    (u.commit d e).draws = e.draws := by
  cases d <;> simp [State.commit]

/-- Where an instruction goes on, and to what state. -/
theorem exec_eq_next {i : Instr} {s t : State} :
    exec i s = .next t ↔ s.Usable (usedFields i) ∧ s.Readable (sources i) ∧
      ∃ e, effect i (s.operands i) (s.afterReads (sources i)) = .ok e ∧
        (target i (s.operands i) = none → s.CanAdvance) ∧
        t = ((s.afterReads (sources i)).commit (destination i) e).setPc
          ((target i (s.operands i)).getD (s.pc + 1)) := by
  rw [exec_eq_phases, withOperands_eq_next, proceed_eq_next]
  simp only [State.leave_eq_next, State.CanAdvance, State.commit_pc, State.commit_params, State.afterReads_pc,
    State.afterReads_params]

/-- Where an instruction faults, and with what, in the order of R201. -/
theorem exec_eq_fault {i : Instr} {s : State} {f : Fault} :
    exec i s = .fault f ↔
      (s.params.flagPolicy = .reserved ∧ s.params.flagReg ∈ usedFields i ∧
          f = .reservedRegister s.params.flagReg) ∨
        (s.Usable (usedFields i) ∧ ∃ r, (sources i).find? s.lacksValue = some r ∧ f = .unwrittenRegister r) ∨
        (s.Usable (usedFields i) ∧ s.Readable (sources i) ∧
          (effect i (s.operands i) (s.afterReads (sources i)) = .error f ∨
            (∃ e, effect i (s.operands i) (s.afterReads (sources i)) = .ok e) ∧ target i (s.operands i) = none ∧
              (s.params.pcWrap = .fault ∧ s.pc = 1023) ∧ f = .pcOverflow)) := by
  rw [exec_eq_phases, withOperands_eq_fault, proceed_eq_fault]
  simp only [State.leave_eq_fault, State.commit_pc, State.commit_params, State.afterReads_pc, State.afterReads_params,
    exists_and_right]

/-- An instruction transfers control exactly where it has a target (R29, R181). -/
theorem target_eq_none_iff {i : Instr} {s : State} :
    target i (s.operands i) = none ↔ s.transfers i = false := by
  cases i
  case beq | bne => simp [target, State.transfers, State.regsEqual, State.operands, sources]
  all_goals simp [target, State.transfers]

/-- Computing with an answer adds no fault and removes none. -/
theorem except_map_eq_error {α β : Type} {r : Except Fault α} {f : α → β} {e : Fault} :
    r.map f = .error e ↔ r = .error e := by
  cases r <;> simp [Except.map]

/-- No effect reports an unwritten register: that check is over before (R201). -/
theorem effect_ne_unwrittenRegister (i : Instr) (x : Word × Word) (u : State) (r : RegIdx) :
    effect i x u ≠ .error (.unwrittenRegister r) := by
  intro h
  cases i
  case div =>
    rcases State.quotient_eq_error.mp (except_map_eq_error.mp h) with ⟨-, -, hf⟩ | ⟨-, -, -, hf⟩ <;> cases hf
  case lw =>
    rcases State.loadWord_eq_error.mp (except_map_eq_error.mp h) with ⟨-, -, hf⟩ | ⟨_, -, -, hf⟩ | ⟨_, -, -, hw⟩
    · cases hf
    · cases hf
    · obtain ⟨_, -, -, -, hf⟩ := Memory.wordAt_eq_error.mp hw
      cases hf
  case lb =>
    rcases State.loadByte_eq_error.mp (except_map_eq_error.mp h) with ⟨-, -, hf⟩ | ⟨_, -, -, hf⟩ <;> cases hf
  case sw =>
    have hp := except_map_eq_error.mp h
    rcases State.place_word_cases u (x.1 + u.ext19 _) with ⟨_, he, -⟩ | ⟨_, he, -⟩ | ⟨he, -⟩ <;>
      cases he.symm.trans hp
  all_goals cases h

/-- The state with those fields replaced that no effect depends on: the registers, whether they were written, and
`PC_WRAP`. -/
def State.vary (s : State) (regs : Vector Word 16) (written : Vector Bool 16) (policy : PcPolicy) : State :=
  { s with regs := regs, written := written, params := { s.params with pcWrap := policy } }

/-- An effect is the same whatever the registers, once the operands are read, and under both settings of `PC_WRAP`. -/
theorem effect_vary (i : Instr) (x : Word × Word) (u : State) (regs : Vector Word 16) (written : Vector Bool 16)
    (policy : PcPolicy) : effect i x (u.vary regs written policy) = effect i x u := by
  cases i
  case div =>
    simp only [effect, State.quotient, State.vary]
    by_cases hb : x.2 = 0
    · simp only [hb, if_true]
      cases hz : u.params.divZero <;> rfl
    · simp only [hb, if_false]
      cases hf : u.params.divFn <;> split <;> rfl
  all_goals rfl

/-! ### What a step keeps (R21, R23, R36, R37, R40) -/

/-- The fields an instruction never touches (R36, R40). -/
theorem exec_imem_params {i : Instr} {s t : State} (h : exec i s = .next t) :
    t.imem = s.imem ∧ t.params = s.params := by
  obtain ⟨-, -, e, -, -, rfl⟩ := exec_eq_next.mp h
  simp

/-- Data memory after an instruction: as it was, or with one word stored inside its space (R57, R62). -/
theorem exec_dmem {i : Instr} {s t : State} (h : exec i s = .next t) :
    t.dmem = s.dmem ∨ ∃ a v, a + 3 < dataSpaceBytes ∧ t.dmem = s.dmem.setWord a v := by
  obtain ⟨-, -, ⟨-, -, ht⟩ | ⟨-, -, ⟨-, -, ht⟩ | ⟨rd, v, -, -, ht⟩ | ⟨rs, rt, offset, a, -, ha, h4, ht⟩⟩⟩ :=
    exec_next_cases h
  · exact .inl (by rw [ht]; rfl)
  · exact .inl (by rw [ht]; rfl)
  · exact .inl (by rw [ht]; rfl)
  · exact .inr ⟨a, _, ha.lt h4, by rw [ht]; rfl⟩

/-- The registers after an instruction: as they were, or with a result in the destination (R25, R26). -/
theorem exec_regs {i : Instr} {s t : State} (h : exec i s = .next t) :
    (destination i = none ∧ t.regs = s.regs ∧ t.written = s.written) ∨
      ∃ rd v, destination i = some rd ∧ t.regs = (s.after rd v).regs ∧ t.written = (s.after rd v).written := by
  obtain ⟨-, -, ⟨-, hd, ht⟩ | ⟨-, -, ⟨hd, -, ht⟩ | ⟨rd, v, hd, -, ht⟩ | ⟨rs, rt, offset, a, rfl, -, -, ht⟩⟩⟩ :=
    exec_next_cases h
  · exact .inl ⟨hd, by rw [ht]; exact ⟨rfl, rfl⟩⟩
  · exact .inl ⟨hd, by rw [ht]; exact ⟨rfl, rfl⟩⟩
  · exact .inr ⟨rd, v, hd, by rw [ht]; exact ⟨rfl, rfl⟩⟩
  · exact .inl ⟨rfl, by rw [ht]; exact ⟨rfl, rfl⟩⟩

/-- A register that is not the destination keeps its cell, and the zero register always does (R23, R26). -/
theorem exec_cell {i : Instr} {s t : State} (h : exec i s = .next t) {r : RegIdx}
    (hr : destination i ≠ some r ∨ r = s.params.zeroReg) : t.regs.get r.toFin = s.regs.get r.toFin := by
  obtain ⟨-, hregs, -⟩ | ⟨rd, v, hd, hregs, -⟩ := exec_regs h <;> rw [hregs]
  exact State.after_cell s v (hr.imp_left fun hne e => hne (e ▸ hd))

/-- Every instruction keeps the invariant: it stores inside data memory's space, and never writes the zero register's
cell. -/
theorem exec_keeps_inv {i : Instr} {s t : State} (hs : s.Inv) (h : exec i s = .next t) : t.Inv := by
  obtain ⟨hdmem, himem, hzero, hdistinct⟩ := hs
  obtain ⟨hi, hp⟩ := exec_imem_params h
  refine ⟨?_, by rw [hi, hp]; exact himem, ?_, by rw [hp]; exact hdistinct⟩
  · obtain hm | ⟨a, v, ha, hm⟩ := exec_dmem h <;> rw [hm]
    · exact hdmem
    · exact Memory.wf_setWord v hdmem ha
  · rw [hp, exec_cell h (.inr rfl)]
    exact hzero

/-- Settles O51: a step that goes on is an instruction that does, and every instruction keeps the invariant. -/
theorem stepKeepsInvariant : Obligations.StepKeepsInvariant := by
  intro s t hs h
  obtain ⟨i, -, hi⟩ := step_eq_next.mp h
  exact exec_keeps_inv hs hi

/-- Under `IMEM_MODEL = separate` the instruction words are a matter of instruction memory and parameters (R36). -/
theorem State.instrWord_congr {s t : State} (hi : t.imem = s.imem) (hp : t.params = s.params)
    (hm : s.params.imemModel = .separate) (a : PcAddr) : t.instrWord a = s.instrWord a := by
  simp only [State.instrWord, hi, hp, hm]

/-- Settles O47: no instruction touches either field, and under `separate` the instruction words follow from them. -/
theorem stepKeepsProgramAndParameters : Obligations.StepKeepsProgramAndParameters := by
  intro s t h
  obtain ⟨i, -, hi⟩ := step_eq_next.mp h
  obtain ⟨himem, hparams⟩ := exec_imem_params hi
  exact ⟨himem, hparams, State.instrWord_congr himem hparams⟩

/-- Settles O44: `exec_cell` for a register that is no destination. -/
theorem onlyDestinationRegisterChanges : Obligations.OnlyDestinationRegisterChanges :=
  fun _ _ _ h _ hr => exec_cell h (.inl hr)

/-- Settles O41: a result marks its register as written, and nothing else does. -/
theorem writtenRegistersAreThoseGivenResults : Obligations.WrittenRegistersAreThoseGivenResults := by
  refine ⟨fun p imem dmem r => ?_, fun i s t h r hr => ?_⟩
  · exact Vector.getElem_replicate r.isLt
  · obtain ⟨hd, -, hw⟩ | ⟨rd, v, hd, -, hw⟩ := exec_regs h
    · simp [hd, hw]
    · rw [hw, hd, State.after_written]
      by_cases e : r = rd
      · subst e; simp [hr]
      · simp [e, Ne.symm e]

/-- Settles O50: the result is `after` the zero register, which drops the value. -/
theorem writeToZeroRegisterIsDiscarded : Obligations.WriteToZeroRegisterIsDiscarded := by
  intro i s t hd h
  obtain ⟨-, -, ⟨-, hn, -⟩ | ⟨-, -, ⟨hn, -⟩ | ⟨rd, v, hrd, -, ht⟩ | ⟨rs, rt, offset, a, rfl, -⟩⟩⟩ := exec_next_cases h
  · cases hn.symm.trans hd
  · cases hn.symm.trans hd
  · obtain rfl : rd = s.params.zeroReg := by simpa [hrd] using hd
    rw [ht]
    simp [State.after, State.setDraws]
  · cases hd

/-! ### The program counter (R28 to R31) -/

/-- `pc` after an instruction: its target, or one higher where it has none (R29). -/
theorem exec_pc {i : Instr} {s t : State} (h : exec i s = .next t) :
    t.pc = (target i (s.operands i)).getD (s.pc + 1) := by
  obtain ⟨-, -, e, -, -, rfl⟩ := exec_eq_next.mp h
  rfl

/-- Settles O25: each case is the target of its constructor. -/
theorem programCounterFollowsInstruction : Obligations.ProgramCounterFollowsInstruction := by
  intro i s t h
  have hpc := exec_pc h
  cases i
  case j => exact hpc
  case beq rs rt offset | bne rs rt offset =>
    show t.pc = ite _ _ _
    rw [hpc]
    by_cases e : s.operand [] rs = s.operand [rs] rt <;>
      simp [target, State.operands, sources, e, branchTarget, BitVec.setWidth_eq_extractLsb']
  all_goals exact hpc

/-- An instruction without a target that goes on at the upper end under `PC_WRAP = wrap` has an effect there; it has the
same one under `fault`, and then has nowhere to go (R31, R200). -/
theorem exec_pcOverflow {i : Instr} {s t : State} (hpc : s.pc = 1023) (ht : s.transfers i = false)
    (hf : s.params.pcWrap = .fault)
    (h : exec i { s with params := { s.params with pcWrap := .wrap } } = .next t) :
    exec i s = .fault .pcOverflow := by
  obtain ⟨hu, hr, e, he, -⟩ := exec_eq_next.mp h
  -- No read looks at `PC_WRAP`: operands and draws are those of `s`.
  have he' : effect i (s.operands i) ((s.afterReads (sources i)).vary s.regs s.written .wrap) = .ok e := he
  rw [effect_vary] at he'
  exact exec_eq_fault.mpr (.inr (.inr ⟨hu, hr, .inr ⟨⟨e, he'⟩, target_eq_none_iff.mpr ht, ⟨hf, hpc⟩, rfl⟩⟩))

/-- Settles O26: 1023 + 1 is 0 in 10 bits. -/
theorem programCounterAtItsUpperEnd : Obligations.ProgramCounterAtItsUpperEnd := by
  refine fun i s hpc ht => ⟨fun _ t h => ?_, fun hf t h => exec_pcOverflow hpc ht hf h⟩
  rw [exec_pc h, target_eq_none_iff.mpr ht, hpc]
  rfl

/-! ### Reads of registers (R11, R27) -/

/-- Under the fault policy a register has a value where it is the zero register or has been written (R27). -/
theorem State.lacksValue_eq_false_iff {s : State} (hp : s.params.unwritten = .fault) {r : RegIdx} :
    s.lacksValue r = false ↔ r = s.params.zeroReg ∨ s.written.get r.toFin = true := by
  simp [State.lacksValue, State.unset, hp, or_iff_not_imp_left]

/-- The first source without a value, in the terms of the claims: nothing before it lacks one (R201). -/
theorem find_lacksValue_eq_some {s : State} {read : List RegIdx} {r : RegIdx} :
    read.find? s.lacksValue = some r ↔
      s.params.unwritten = .fault ∧ ∃ before rest : List RegIdx, read = before ++ r :: rest ∧
        (∀ q ∈ before, q = s.params.zeroReg ∨ s.written.get q.toFin = true) ∧
        r ≠ s.params.zeroReg ∧ s.written.get r.toFin = false := by
  rw [List.find?_eq_some_iff_append, State.lacksValue_iff, and_assoc]
  refine and_congr_right fun hp => ?_
  simp only [Bool.not_eq_true', State.lacksValue_eq_false_iff hp]
  exact ⟨fun ⟨hr, before, rest, e, hb⟩ => ⟨before, rest, e, hb, hr⟩,
    fun ⟨before, rest, e, hb, hr⟩ => ⟨hr, before, rest, e, hb⟩⟩

/-- The check of the sources is the one that reports an unwritten register. -/
theorem exec_eq_unwrittenRegister {i : Instr} {s : State} {r : RegIdx} :
    exec i s = .fault (.unwrittenRegister r) ↔
      s.Usable (usedFields i) ∧ (sources i).find? s.lacksValue = some r := by
  rw [exec_eq_fault]
  simp [effect_ne_unwrittenRegister]

/-- Settles O40: the check of the sources raises this fault, and no effect does. -/
theorem unwrittenRegisterExactly : Obligations.UnwrittenRegisterExactly := by
  intro i s r
  rw [exec_eq_unwrittenRegister, find_lacksValue_eq_some, and_left_comm]

theorem State.drawsFor_append_singleton (s : State) (before : List RegIdx) (r : RegIdx) :
    s.drawsFor (before ++ [r]) = s.drawsFor before + if s.drawsAt r then 1 else 0 := by
  unfold State.drawsFor
  cases h : s.drawsAt r <;> simp [h]

/-- ADD of two registers, both read by a draw of their own. -/
theorem exec_add_of_drawsAt {s : State} {rs rt : RegIdx} (hrs : s.drawsAt rs = true) (hrt : s.drawsAt rt = true)
    (rd : RegIdx) (shamt : Shamt) (funct : Funct) (hu : s.Usable [rs, rt, rd]) (hr : s.Readable [rs, rt])
    (hc : s.CanAdvance) :
    exec (.add rs rt rd shamt funct) s =
      .next ((s.setDraws (s.draws + 2)).after rd (Config.freeWord s.draws + Config.freeWord (s.draws + 1))) := by
  have h1 : s.drawsFor [rs] = 1 := by simp [State.drawsFor, hrs]
  have h2 : s.drawsFor [rs, rt] = 2 := by simp [State.drawsFor, hrs, hrt]
  have hadd := threeRegister_eq_next (f := (· + ·)).mpr ⟨hu, hr, hc, rfl⟩
  rw [State.operand_of_drawsAt hrs, State.operand_of_drawsAt hrt, h1, State.afterReads, h2] at hadd
  exact hadd

/-- Settles O55: a read draws exactly where `State.drawsAt` says so. -/
theorem unwrittenReadsDrawAfresh : Obligations.UnwrittenReadsDrawAfresh := by
  refine ⟨fun s before r => ⟨fun hp hz hw => ?_, fun h => ?_⟩, fun i s r hp => ?_, ?_⟩
  · have hd : s.drawsAt r = true := State.drawsAt_iff.mpr ⟨hp, hz, hw⟩
    exact ⟨State.operand_of_drawsAt hd before, by rw [State.drawsFor_append_singleton, hd]; rfl⟩
  · have hd : s.drawsAt r = false := by
      rw [Bool.eq_false_iff, Ne, State.drawsAt_iff]
      rintro ⟨hp, hz, hw⟩
      simp [hp, hz, hw] at h
    exact ⟨by simp [State.operand, hd], by rw [State.drawsFor_append_singleton, hd]; rfl⟩
  · rw [Ne, exec_eq_unwrittenRegister, find_lacksValue_eq_some, hp]
    simp
  · intro s rs rt rd shamt funct hp hu hc hzs hzt hws hwt
    exact exec_add_of_drawsAt (State.drawsAt_iff.mpr ⟨hp, hzs, hws⟩) (State.drawsAt_iff.mpr ⟨hp, hzt, hwt⟩) rd shamt
      funct hu (fun hf => by rw [hp] at hf; cases hf) hc

/-! ### What an instruction depends on (R25, R26) -/

theorem State.readReg_writeReg (s : State) (i j : RegIdx) (v : Word) :
    (s.writeReg i v).readReg j = if j = s.params.zeroReg then 0 else if j = i then v else s.readReg j := by
  rw [← State.readReg_after, ← State.writeReg_setPc, State.readReg_setPc]

/-- The zero register reads 0, the destination the value committed to it, every other register what it held. -/
theorem State.readReg_commit (u : State) (d : Option RegIdx) (e : Effect) (r : RegIdx) :
    (u.commit d e).readReg r =
      if r = u.params.zeroReg then 0 else if d = some r then e.value else u.readReg r := by
  cases d with
  | none =>
    split
    · next h => exact if_pos h
    · rfl
  | some rd =>
    simp only [State.commit, State.readReg_writeReg, Option.some.injEq, eq_comm (a := rd)]
    rfl

/-- Committing an effect marks no register but the destination as written. -/
theorem State.written_commit (u : State) {d : Option RegIdx} (e : Effect) {r : RegIdx} (h : d ≠ some r) :
    (u.commit d e).written.get r.toFin = u.written.get r.toFin := by
  cases d with
  | none => rfl
  | some rd =>
    simp only [State.commit, State.writeReg_written]
    split
    · rfl
    · exact regs_get_set_ne _ _ fun e => h (by rw [e])

/-- Two states alike in every field but the registers and whether these were written. -/
structure SameButRegisters (s s' : State) : Prop where
  pc : s'.pc = s.pc
  imem : s'.imem = s.imem
  dmem : s'.dmem = s.dmem
  params : s'.params = s.params
  draws : s'.draws = s.draws

/-- The relation in the terms of the claims. -/
theorem sameButRegisters_iff {s s' : State} :
    SameButRegisters s s' ↔ s' = { s with regs := s'.regs, written := s'.written } := by
  constructor
  · intro ⟨hpc, himem, hdmem, hparams, hdraws⟩
    rw [← hpc, ← himem, ← hdmem, ← hparams, ← hdraws]
  · intro h
    rw [h]
    exact ⟨rfl, rfl, rfl, rfl, rfl⟩

theorem SameButRegisters.setPc {s s' : State} (h : SameButRegisters s s') (p : PcAddr) :
    SameButRegisters (s.setPc p) (s'.setPc p) :=
  ⟨rfl, h.imem, h.dmem, h.params, h.draws⟩

theorem SameButRegisters.commit {s s' : State} (h : SameButRegisters s s') (d : Option RegIdx) (e : Effect) :
    SameButRegisters (s.commit d e) (s'.commit d e) :=
  ⟨by simp [h.pc], by simp [h.imem], by simp, by simp [h.params], by simp⟩

theorem SameButRegisters.effect_eq {s s' : State} (h : SameButRegisters s s') (i : Instr) (x : Word × Word) :
    effect i x s' = effect i x s := by
  rw [sameButRegisters_iff.mp h]
  exact effect_vary i x s _ _ s.params.pcWrap

section SameSources

variable {i : Instr} {s s' : State} (hs : SameButRegisters s s')
  (hsrc : ∀ r ∈ sources i, s'.readReg r = s.readReg r ∧ s'.written.get r.toFin = s.written.get r.toFin)

include hs hsrc

theorem operands_of_sources : s'.operands i = s.operands i := by
  have hop {before r} (hb : before ⊆ sources i) (hr : r ∈ sources i) :=
    (State.operand_congr hs.params hs.draws hsrc hb hr).1
  unfold State.operands
  rcases hl : sources i with _ | ⟨r, _ | ⟨r', rest⟩⟩
  · rfl
  · simp only [hop (before := []) (r := r) (by simp) (by simp [hl])]
  · simp only [hop (before := []) (r := r) (by simp) (by simp [hl]),
      hop (before := [r]) (r := r') (by simp [hl]) (by simp [hl])]

theorem drawsFor_of_sources : s'.drawsFor (sources i) = s.drawsFor (sources i) := by
  rcases hl : sources i with _ | ⟨r, rest⟩
  · rfl
  · rw [hl] at hsrc
    exact (State.operand_congr hs.params hs.draws hsrc (List.Subset.refl _) List.mem_cons_self).2

theorem find_lacksValue_of_sources : (sources i).find? s'.lacksValue = (sources i).find? s.lacksValue := by
  refine List.find?_congr fun r hr => ?_
  unfold State.lacksValue State.unset
  rw [hs.params, (hsrc r hr).2]

/-- Once their sources are read, the two states still differ in registers alone. -/
theorem afterReads_of_sources : SameButRegisters (s.afterReads (sources i)) (s'.afterReads (sources i)) :=
  ⟨hs.pc, hs.imem, hs.dmem, hs.params, by simp [hs.draws, drawsFor_of_sources hs hsrc]⟩

/-- Faults are decided by the sources, the parameters, `pc` and memory. -/
theorem exec_fault_of_sources {f : Fault} : exec i s' = .fault f ↔ exec i s = .fault f := by
  simp only [exec_eq_fault, State.readable_iff, State.Usable, operands_of_sources hs hsrc,
    (afterReads_of_sources hs hsrc).effect_eq, find_lacksValue_of_sources hs hsrc, hs.params, hs.pc]

/-- One effect is committed to both states, and both set `pc` alike. -/
theorem exec_next_of_sources {t : State} (h : exec i s = .next t) :
    ∃ (e : Effect) (p : PcAddr), t = ((s.afterReads (sources i)).commit (destination i) e).setPc p ∧
      exec i s' = .next (((s'.afterReads (sources i)).commit (destination i) e).setPc p) := by
  obtain ⟨hu, hr, e, he, hc, ht⟩ := exec_eq_next.mp h
  refine ⟨e, _, ht, exec_eq_next.mpr ⟨?_, ?_, e, ?_, ?_, ?_⟩⟩
  · simpa only [State.Usable, hs.params] using hu
  · rwa [State.readable_iff, find_lacksValue_of_sources hs hsrc, ← State.readable_iff]
  · rw [operands_of_sources hs hsrc, (afterReads_of_sources hs hsrc).effect_eq, he]
  · simpa only [operands_of_sources hs hsrc, State.CanAdvance, hs.params, hs.pc] using hc
  · rw [operands_of_sources hs hsrc, hs.pc]

end SameSources

/-- A register that is not the destination keeps, through reads, commit and `pc`, what it held. -/
theorem readReg_of_not_destination (s : State) (read : List RegIdx) {d : Option RegIdx} (e : Effect) (p : PcAddr)
    {r : RegIdx} (hr : d ≠ some r) : (((s.afterReads read).commit d e).setPc p).readReg r = s.readReg r := by
  rw [State.readReg_setPc, State.readReg_commit, if_neg hr]
  split
  · next hz => exact (if_pos hz).symm
  · rfl

/-- Settles O45: the same faults, or the same effect committed to both states. -/
theorem outcomeDependsOnSourcesOnly : Obligations.OutcomeDependsOnSourcesOnly := by
  intro i s s' hdiff hsrc
  have hs := sameButRegisters_iff.mpr hdiff
  refine ⟨fun f => (exec_fault_of_sources hs hsrc).mpr, fun t h => ?_⟩
  obtain ⟨e, p, rfl, h'⟩ := exec_next_of_sources hs hsrc h
  refine ⟨_, h', sameButRegisters_iff.mp (((afterReads_of_sources hs hsrc).commit _ e).setPc p), ?_, ?_⟩
  · intro r hr
    simp [State.readReg_commit, hr, hs.params]
  · intro r hr
    exact ⟨readReg_of_not_destination s' _ e p hr, State.written_commit _ e hr⟩

/-! ### Instruction memory and reset (R36, R41, R42, R46) -/

/-- Under `IMEM_MODEL = separate` the word comes from instruction memory alone (R36). -/
theorem State.instrWord_separate {s : State} {a : PcAddr} (ha : a.toNat < s.params.imemWords)
    (hm : s.params.imemModel = .separate) : s.instrWord a = cellRead s.imem a.toNat := by
  simp only [State.instrWord, ha, if_true, hm]

/-- Under `unified` it is a word of data memory, where that has a value (R36, R55). -/
theorem State.instrWord_unified {s : State} {a : PcAddr} (ha : a.toNat < s.params.imemWords)
    (hm : s.params.imemModel = .unified) (w : Word) :
    s.instrWord a = some w ↔ s.dmem.wordAt (4 * a.toNat) = .ok w := by
  simp only [State.instrWord, ha, if_true, hm]
  cases s.dmem.wordAt (4 * a.toNat) <;> simp [Except.toOption]

/-- No word stands at or above `IMEM_WORDS` (R36, R58). -/
theorem State.instrWord_of_le {s : State} {a : PcAddr} (ha : s.params.imemWords ≤ a.toNat) : s.instrWord a = none :=
  if_neg (Nat.not_lt.mpr ha)

/-- Settles O8: a clause for each memory, and one for the addresses neither holds. -/
theorem instructionWordFollowsImemModel : Obligations.InstructionWordFollowsImemModel :=
  fun _ _ => ⟨State.instrWord_separate,
    fun ha hm w => (State.instrWord_unified ha hm w).trans Memory.wordAt_eq_ok, State.instrWord_of_le⟩

/-- Settles O49: the reset state reads 0 there as every state does. -/
theorem zeroRegisterReadsZero : Obligations.ZeroRegisterReadsZero :=
  ⟨State.readReg_zero State.reset, State.readReg_zero⟩

/-- Settles O53: the launch sets `pc` from its parameters, whose default is 0. -/
theorem resetStartsAtResetPc : Obligations.ResetStartsAtResetPc := ⟨fun _ _ _ => rfl, rfl, rfl⟩

/-- A launch has the invariant where its memories are in canonical form and its two special registers distinct. -/
theorem launch_inv {p : Params} {imem : InstrMemory} {dmem : Memory} (hd : dmem.wf = true)
    (hi : imem.wf p.imemWords = true) (hp : p.zeroReg ≠ p.flagReg) : (State.launch p imem dmem).Inv :=
  ⟨hd, hi, Vector.getElem_replicate p.zeroReg.isLt, hp⟩

/-- Settles O52: both memories are empty at reset. -/
theorem resetHasInvariant : Obligations.ResetHasInvariant := launch_inv rfl rfl (by decide)

end Sys2Proof.Machine
end

