-- ==== Sys2Proof/Proofs/Memory.lean ====
section
/-! What spec/20_memory.md says of data memory: the word as its four bytes (R52), byte reads of a stored word (R54), the
load after the store (R68), and that nothing but SW writes (R62). -/

namespace Sys2Proof.Machine

/-! ### The bytes of a word (R52, R57) -/

/-- Each byte of a big-endian word is read back from its own eight bits (R52). -/
theorem extractLsb'_bytes (b0 b1 b2 b3 : Byte) :
    (b0 ++ b1 ++ b2 ++ b3).extractLsb' 24 8 = b0 ∧ (b0 ++ b1 ++ b2 ++ b3).extractLsb' 16 8 = b1 ∧
      (b0 ++ b1 ++ b2 ++ b3).extractLsb' 8 8 = b2 ∧ (b0 ++ b1 ++ b2 ++ b3).extractLsb' 0 8 = b3 := by
  refine ⟨?_, ?_, ?_, append_low _ _⟩
  · rw [append_high _ _ (by decide), append_high _ _ (by decide), append_high _ _ (by decide)]
    exact BitVec.extractLsb'_eq_self
  · rw [append_high _ _ (by decide), append_high _ _ (by decide)]
    exact append_low _ _
  · rw [append_high _ _ (by decide)]
    exact append_low _ _

/-- Settles O34: four listed bytes make the word read, and each stands in its own eight bits of it. -/
theorem wordInMemoryIsBigEndian : Obligations.WordInMemoryIsBigEndian :=
  fun _ _ b0 b1 b2 b3 _ h0 h1 h2 h3 =>
    ⟨_, Memory.wordAt_eq_ok.mpr ⟨b0, b1, b2, b3, h0, h1, h2, h3, rfl⟩, rfl, extractLsb'_bytes b0 b1 b2 b3⟩

/-- Byte `k` of a stored word, counted from its high end (R54, R57). -/
theorem Memory.read_setWord_byte (m : Memory) (a : Nat) (v : Word) {k : Nat} (hk : k < 4) :
    cellRead (m.setWord a v) (a + k) = some (v.extractLsb' (24 - 8 * k) 8) := by
  rw [Memory.read_setWord]
  interval_cases k <;> simp

/-! ### The place of an access (R56, R57) -/

@[simp] theorem State.places_setDmem (s : State) (m : Memory) (ea : Word) (n a : Nat) :
    (s.setDmem m).Places ea n a ↔ s.Places ea n a := Iff.rfl

/-- The bytes of an aligned word lie one after another, wrapped or not: the 2 MB space ends at a multiple of 4, so no
word straddles its end, and none straddles 2^32. -/
theorem State.Places.byte {s : State} {ea : Word} {a k : Nat} (h : s.Places ea 4 a) (h4 : a % 4 = 0) (hk : k < 4) :
    s.Places (ea + BitVec.ofNat 32 k) 1 (a + k) := by
  have hea : ea.toNat % 4 = 0 := by
    rcases h with ⟨-, rfl⟩ | ⟨-, -, rfl⟩ <;> omega
  have hsum : (ea + BitVec.ofNat 32 k).toNat = ea.toNat + k := by
    rw [BitVec.toNat_add, BitVec.toNat_ofNat]
    omega
  unfold State.Places
  rw [hsum]
  rcases h with ⟨hin, rfl⟩ | ⟨hout, hwrap, rfl⟩
  · exact .inl ⟨by omega, rfl⟩
  · exact .inr ⟨by omega, hwrap, by omega⟩

/-! ### Reading what was stored (R54, R68) -/

/-- Settles O33: the byte read takes place `k` bytes into the stored word. -/
theorem byteLoadsSeeStoredWordBigEndian : Obligations.ByteLoadsSeeStoredWordBigEndian := by
  intro s t ea v h k hk
  obtain ⟨a, ha, h4, rfl⟩ := State.storeWord_eq_ok.mp h
  exact State.loadByte_eq_ok.mpr ⟨a + k, (State.places_setDmem ..).mpr (ha.byte h4 hk),
    Memory.read_setWord_byte s.dmem a v hk⟩

/-- SW stores at the place of its access, which is aligned, and touches data memory nowhere else (R57, R163). -/
theorem exec_sw_dmem {s t : State} {rs rt : RegIdx} {offset : Imm19} {a : Nat}
    (h : exec (.sw rs rt offset) s = .next t) (ha : s.Places (s.effAddr rs offset) 4 a) :
    a % 4 = 0 ∧ t.dmem = s.dmem.setWord a (s.operand [rs] rt) := by
  obtain ⟨-, -, -, a', ha', h4, rfl⟩ := execSw_eq_next.mp h
  obtain rfl := ha.unique ha'
  exact ⟨h4, rfl⟩

/-- Settles O35: the load finds at its place the word that the store left there. -/
theorem loadAfterStoreReturnsStoredWord : Obligations.LoadAfterStoreReturnsStoredWord := by
  intro s t rs rt rs' rd offset offset' a hsw hstore hload hu hr hc
  obtain ⟨h4, hmem⟩ := exec_sw_dmem hsw hstore
  have hword : t.dmem.wordAt a = .ok (s.operand [rs] rt) := by
    rw [hmem, Memory.wordAt_setWord]
  exact execLw_eq_next.mpr ⟨hu, hr, _, State.loadWord_eq_ok.mpr ⟨a, hload, h4, hword⟩, hc, rfl⟩

/-! ### Nothing else writes (R62, R164) -/

/-- Settles O46: of all an instruction can have done, a store is SW's alone, and the rest leaves data memory. -/
theorem onlyStoreWordChangesMemory : Obligations.OnlyStoreWordChangesMemory := by
  intro i s t h hsw
  obtain ⟨-, -, ⟨-, -, ht⟩ | ⟨-, -, ⟨-, -, ht⟩ | ⟨rd, v, -, -, ht⟩ | ⟨rs, rt, offset, a, hi, -⟩⟩⟩ := exec_next_cases h
  · rw [ht, State.setPc_dmem, State.afterReads_dmem]
  · rw [ht, State.setPc_dmem, State.afterReads_dmem]
  · rw [ht, State.after_dmem, State.setDraws_dmem]
  · exact absurd hi (hsw rs rt offset)

end Sys2Proof.Machine
end

