-- ==== Sys2Proof/Proofs/Encoding.lean ====
section
/-! What spec/30_encoding.md says of words and instructions: decoding and encoding are inverse (R80 to R84), the operation
code selects the instruction (R88), the decode masks (R95), and the canonical form (R93). -/

namespace Sys2Proof

/-! ### Decoding and encoding are inverse (R80 to R84) -/

theorem formatR_encodeR (mk : RegIdx → RegIdx → RegIdx → Shamt → Funct → Instr) (op : Opcode) (rs rt rd : RegIdx)
    (shamt : Shamt) (funct : Funct) : formatR mk (encodeR op rs rt rd shamt funct) = mk rs rt rd shamt funct := by
  rw [formatR, rsField_encodeR, rtField_encodeR, rdField_encodeR, shamtField_encodeR, functField_encodeR]

theorem formatI_encodeI (mk : RegIdx → RegIdx → Imm19 → Instr) (op : Opcode) (rs rt : RegIdx) (imm : Imm19) :
    formatI mk (encodeI op rs rt imm) = mk rs rt imm := by
  rw [formatI, rsField_encodeI, rtField_encodeI, immField_encodeI]

theorem opcodeInWord (i : Instr) : Laws.OpcodeInWord.Statement i := by
  cases i
  exacts [Laws.OpcodeInWord.add .., Laws.OpcodeInWord.sub .., Laws.OpcodeInWord.and .., Laws.OpcodeInWord.or ..,
    Laws.OpcodeInWord.nor .., Laws.OpcodeInWord.sll .., Laws.OpcodeInWord.srl .., Laws.OpcodeInWord.mult ..,
    Laws.OpcodeInWord.div .., Laws.OpcodeInWord.beq .., Laws.OpcodeInWord.bne .., Laws.OpcodeInWord.lw ..,
    Laws.OpcodeInWord.lb .., Laws.OpcodeInWord.sw .., Laws.OpcodeInWord.j .., Laws.OpcodeInWord.addi ..,
    Laws.OpcodeInWord.nop ..]

theorem opcodeField_encode (i : Instr) : opcodeField (encode i) = i.opcode := (opcodeInWord i).1

/-- The strict decoder asks no more of an instruction than to be canonical (R93, R94). -/
theorem strictAccepts_of_wellFormed {i : Instr} : i.WellFormed = true → i.strictAccepts = true := (opcodeInWord i).2

/-- The operation code in an instruction's word picks its own branch of the decoder, which reads the fields back. -/
theorem decode_encode (i : Instr) : decode (encode i) = .ok i := by
  unfold decode
  rw [opcodeField_encode]
  cases i
  case add | sub | and | or | nor | sll | srl | mult | div => exact congrArg Except.ok (formatR_encodeR ..)
  case beq | bne | lw | lb | sw | addi => exact congrArg Except.ok (formatI_encodeI ..)
  case j => exact congrArg (Except.ok ∘ Instr.j) (addressField_encodeJ ..)
  case nop => exact congrArg (Except.ok ∘ Instr.nop) (addressField_encodeJ ..)

/-- Settles O1: the strict decoder accepts what the plain one reads back from a canonical instruction's word. -/
theorem decodeReadsBackEveryEncoding : Obligations.DecodeReadsBackEveryEncoding := fun i =>
  ⟨decode_encode i, decodeWord_eq_ok.mpr ⟨decode_encode i, nofun⟩,
    fun hwf => decodeWord_eq_ok.mpr ⟨decode_encode i, fun _ => strictAccepts_of_wellFormed hwf⟩⟩

/-- The fields of format R leave out no bit of a word (R81). -/
theorem encodeR_fields (w : Word) :
    encodeR (opcodeField w) (rsField w) (rtField w) (rdField w) (shamtField w) (functField w) = w := by
  unfold encodeR opcodeField rsField rtField rdField shamtField functField
  simp only [BitVec.extractLsb'_append_extractLsb'_eq_extractLsb', BitVec.extractLsb'_eq_self]

/-- Nor do those of format I (R82). -/
theorem encodeI_fields (w : Word) : encodeI (opcodeField w) (rsField w) (rtField w) (immField w) = w := by
  unfold encodeI opcodeField rsField rtField immField
  simp only [BitVec.extractLsb'_append_extractLsb'_eq_extractLsb', BitVec.extractLsb'_eq_self]

/-- Nor do the two of format J and of NOP (R83, R84). -/
theorem encodeJ_fields (w : Word) : encodeJ (opcodeField w) (addressField w) = w := by
  unfold encodeJ opcodeField addressField
  simp only [BitVec.extractLsb'_append_extractLsb'_eq_extractLsb', BitVec.extractLsb'_eq_self]

/-- Settles O2: whichever format the operation code selects, its fields are all of the word. -/
theorem encodeReproducesDecodedWord : Obligations.EncodeReproducesDecodedWord := by
  intro w i h
  have hop := opcode_of_decode h
  unfold decode at h
  split at h
  case h_1 | h_2 | h_3 | h_4 | h_5 | h_6 | h_7 | h_8 | h_9 =>
    cases h
    simp only [formatR, encode] at hop ⊢
    rw [← hop, encodeR_fields]
  case h_10 | h_11 | h_12 | h_13 | h_14 | h_16 =>
    cases h
    simp only [formatI, encode] at hop ⊢
    rw [← hop, encodeI_fields]
  case h_15 | h_17 =>
    cases h
    simp only [encode]
    rw [← hop, encodeJ_fields]
  case h_18 => cases h

/-- Words that decode and instructions stand one to one. -/
theorem decode_eq_ok {w : Word} {i : Instr} : decode w = .ok i ↔ encode i = w :=
  ⟨encodeReproducesDecodedWord w i, fun h => h ▸ decode_encode i⟩

/-- Settles O5: each word is that of its instruction. -/
theorem writtenOutWordsDecode : Obligations.WrittenOutWordsDecode := by
  unfold Obligations.WrittenOutWordsDecode
  simp only [decode_eq_ok]
  decide

/-! ### The operation code selects the instruction (R88) -/

/-- Settles O3: the code of a word that decodes is its instruction's, and the other codes are not in the map. -/
theorem opcodeAloneSelectsInstruction : Obligations.OpcodeAloneSelectsInstruction := by
  intro w
  change _ = List.lookup (opcodeField w).toNat _
  rcases decode_cases w with ⟨i, hi⟩ | ⟨he, hlow, hhigh⟩
  · rw [hi, opcode_of_decode hi]
    cases i <;> rfl
  · rw [he]
    change none = _
    generalize opcodeField w = op at hlow hhigh ⊢
    revert op
    decide

theorem mnemonic_eq_of_opcode_eq {i j : Instr} (h : i.opcode = j.opcode) : i.mnemonic = j.mnemonic := by
  have hi := opcodeAloneSelectsInstruction (encode i)
  have hj := opcodeAloneSelectsInstruction (encode j)
  rw [decode_encode] at hi hj
  change _ = List.lookup (opcodeField (encode i)).toNat _ at hi
  rw [opcodeField_encode, h, ← opcodeField_encode j] at hi
  exact Option.some.inj (hi.trans hj.symm)

/-! ### The decode masks (R95) -/

/-- The mask of the `len` bits of a word from bit `start` up. -/
def fieldMask (start len : Nat) : Word := (BitVec.allOnes len).setWidth 32 <<< start

theorem getLsbD_and_fieldMask {start len : Nat} (h : start + len ≤ 32) (w : Word) (k : Nat) :
    (w &&& fieldMask start len).getLsbD k = (w.getLsbD k && decide (start ≤ k ∧ k < start + len)) := by
  simp only [fieldMask, BitVec.getLsbD_and, BitVec.getLsbD_shiftLeft, BitVec.getLsbD_setWidth, BitVec.getLsbD_allOnes]
  grind

/-- A field has a value exactly where the word under its mask is that value, moved to the field's place. -/
theorem extractLsb'_eq_iff {start len : Nat} (h : start + len ≤ 32) (w : Word) (v : BitVec len) :
    w.extractLsb' start len = v ↔ w &&& fieldMask start len = v.setWidth 32 <<< start := by
  simp only [BitVec.eq_of_getLsbD_eq_iff, getLsbD_and_fieldMask h, BitVec.getLsbD_extractLsb', BitVec.getLsbD_shiftLeft,
    BitVec.getLsbD_setWidth]
  constructor
  · intro hw k hk
    have := hw (k - start)
    grind
  · intro hw k hk
    specialize hw (start + k) (by omega)
    grind

/-- The case of a field that is zero. -/
theorem extractLsb'_eq_zero_iff {start len : Nat} (h : start + len ≤ 32) (w : Word) :
    w.extractLsb' start len = 0 ↔ w &&& fieldMask start len = 0 := by
  simp [extractLsb'_eq_iff h]

/-- Two fields are zero exactly where the word under both their masks is. -/
theorem extractLsb'_eq_zero_and_iff {start len start' len' : Nat} (h : start + len ≤ 32) (h' : start' + len' ≤ 32)
    (w : Word) : w.extractLsb' start len = 0 ∧ w.extractLsb' start' len' = 0 ↔
      w &&& (fieldMask start len ||| fieldMask start' len') = 0 := by
  rw [extractLsb'_eq_zero_iff h, extractLsb'_eq_zero_iff h', BitVec.and_or_distrib_left]
  exact BitVec.or_eq_zero_iff.symm

/-- A mask inside a wider one sees through it. -/
theorem and_or_and_left (w m m' : Word) : (w &&& (m ||| m')) &&& m = w &&& m := by
  ext k hk
  simp only [BitVec.getElem_and, BitVec.getElem_or]
  grind

/-- Of two masks with no bit in common, a value under the first: both masks together show it, where the second shows
nothing. -/
theorem and_or_eq_iff {w m m' y : Word} (hy : y &&& m = y) (hm : m &&& m' = 0) :
    w &&& (m ||| m') = y ↔ w &&& m = y ∧ w &&& m' = 0 := by
  constructor
  · intro h
    have hfirst : w &&& m = y := by rw [← and_or_and_left w m m', h, hy]
    have hsecond : w &&& m' = y &&& (m &&& m') := by
      rw [← and_or_and_left w m' m, BitVec.or_comm, h, ← BitVec.and_assoc, hy]
    exact ⟨hfirst, by rw [hsecond, hm]; exact BitVec.and_zero⟩
  · rintro ⟨hfirst, hsecond⟩
    rw [BitVec.and_or_distrib_left, hfirst, hsecond]
    exact BitVec.or_zero

/-- The bits that the strict decoder asks to be zero (R94 b to d): SHAMT and FUNCTION, RS and FUNCTION, or none. -/
def Instr.mustBeZero : Instr → Word
  | .add .. | .sub .. | .and .. | .or .. | .nor .. | .mult .. | .div .. => fieldMask 10 5 ||| fieldMask 0 10
  | .sll .. | .srl .. => fieldMask 23 4 ||| fieldMask 0 10
  | .beq .. | .bne .. | .lw .. | .lb .. | .sw .. | .j .. | .addi .. | .nop .. => 0

/-- The strict decoder accepts the instructions whose words are zero there. -/
theorem strictAccepts_iff (i : Instr) : i.strictAccepts = true ↔ encode i &&& i.mustBeZero = 0 := by
  cases i
  case add | sub | and | or | nor | mult | div =>
    simp only [Instr.strictAccepts, Bool.and_eq_true, beq_iff_eq, Instr.mustBeZero, encode]
    rw [← extractLsb'_eq_zero_and_iff (by decide) (by decide), ← shamtField, ← functField, shamtField_encodeR,
      functField_encodeR]
  case sll | srl =>
    simp only [Instr.strictAccepts, Bool.and_eq_true, beq_iff_eq, Instr.mustBeZero, encode]
    rw [← extractLsb'_eq_zero_and_iff (by decide) (by decide), ← rsField, ← functField, rsField_encodeR,
      functField_encodeR]
  case beq | bne | lw | lb | sw | j | addi | nop => exact iff_of_true rfl BitVec.and_zero

/-- Those bits lie apart from the operation code. -/
theorem opcodeMask_and_mustBeZero (i : Instr) : fieldMask 27 5 &&& i.mustBeZero = 0 := by
  cases i <;> simp only [Instr.mustBeZero] <;> decide

/-- One instruction of each row of the opcode table. -/
def Instr.ofEachRow : List Instr :=
  [.add 0 0 0 0 0, .sub 0 0 0 0 0, .and 0 0 0 0 0, .or 0 0 0 0 0, .nor 0 0 0 0 0, .sll 0 0 0 0 0, .srl 0 0 0 0 0,
    .mult 0 0 0 0 0, .div 0 0 0 0 0, .beq 0 0 0, .bne 0 0 0, .lw 0 0 0, .lb 0 0 0, .sw 0 0 0, .j 0, .addi 0 0 0, .nop 0]

/-- An instruction has the operation code and the bits to be zero of its mnemonic's row. -/
theorem find_mnemonic_ofEachRow (i : Instr) :
    (Instr.ofEachRow.find? (·.mnemonic == i.mnemonic)).map (fun j => (j.opcode, j.mustBeZero)) =
      some (i.opcode, i.mustBeZero) := by
  cases i <;> rfl

theorem opcode_mustBeZero_eq_of_mnemonic_eq {i j : Instr} (h : i.mnemonic = j.mnemonic) :
    i.opcode = j.opcode ∧ i.mustBeZero = j.mustBeZero := by
  have hi := find_mnemonic_ofEachRow i
  rw [h, find_mnemonic_ofEachRow j] at hi
  exact Prod.mk.inj (Option.some.inj hi.symm)

/-- A word that carries an instruction's operation code decodes: that code is assigned. -/
theorem exists_decode_of_opcodeField {w : Word} {j : Instr} (h : opcodeField w = j.opcode) :
    ∃ i, decode w = .ok i ∧ i.mnemonic = j.mnemonic := by
  rcases decode_cases w with ⟨i, hi⟩ | ⟨-, hcode⟩
  · exact ⟨i, hi, mnemonic_eq_of_opcode_eq ((opcode_of_decode hi).symm.trans h)⟩
  · rw [h, ← opcodeField_encode j] at hcode
    have herror := decode_eq_error.mpr ⟨rfl, hcode⟩
    rw [decode_encode] at herror
    exact nomatch herror

/-- Decoding answers a row exactly where the word has that row's operation code and, to the strict decoder, zeros where
it asks for them (R94, R95). -/
theorem decodeWord_mnemonic_iff {strict : Bool} {w : Word} {j : Instr} :
    (∃ i, decodeWord strict w = .ok i ∧ i.mnemonic = j.mnemonic) ↔
      opcodeField w = j.opcode ∧ (strict = true → w &&& j.mustBeZero = 0) := by
  simp only [decodeWord_eq_ok, strictAccepts_iff]
  constructor
  · rintro ⟨i, ⟨hi, hstrict⟩, hname⟩
    obtain ⟨hop, hzero⟩ := opcode_mustBeZero_eq_of_mnemonic_eq hname
    rw [decode_eq_ok.mp hi, hzero] at hstrict
    exact ⟨(opcode_of_decode hi).trans hop, hstrict⟩
  · rintro ⟨hop, hstrict⟩
    obtain ⟨i, hi, hname⟩ := exists_decode_of_opcodeField hop
    rw [← (opcode_mustBeZero_eq_of_mnemonic_eq hname).2, ← decode_eq_ok.mp hi] at hstrict
    exact ⟨i, ⟨hi, hstrict⟩, hname⟩

theorem opcodeField_eq_iff {w : Word} {op : Opcode} :
    opcodeField w = op ↔ w &&& fieldMask 27 5 = op.setWidth 32 <<< 27 :=
  extractLsb'_eq_iff (by decide) w op

/-- An operation code at its place lies under its own mask. -/
theorem opcode_and_opcodeMask (op : Opcode) : (op.setWidth 32 <<< 27) &&& fieldMask 27 5 = op.setWidth 32 <<< 27 := by
  revert op
  decide

/-- The row of R95 for an instruction: its mnemonic, its operation code, and the strict decoder's mask. -/
def Instr.maskRow (i : Instr) : String × Word × Word :=
  (i.mnemonic, i.opcode.setWidth 32, fieldMask 27 5 ||| i.mustBeZero)

/-- Settles O4: the rows are those of the instructions, and a row's mask is the operation code's and that of the bits to
be zero. -/
theorem decodeMatchesMasks : Obligations.DecodeMatchesMasks := by
  intro row hrow w
  obtain ⟨j, -, rfl⟩ := List.mem_map.mp (show row ∈ Instr.ofEachRow.map Instr.maskRow from hrow)
  rw [Instr.maskRow, decodeWord_mnemonic_iff, decodeWord_mnemonic_iff]
  rw [and_or_eq_iff (opcode_and_opcodeMask j.opcode) (opcodeMask_and_mustBeZero j), ← opcodeField_eq_iff]
  exact ⟨(and_iff_left nofun).trans opcodeField_eq_iff, and_congr_right' (forall_prop_of_true rfl)⟩

/-! ### The canonical form (R93) -/

/-- Low bits that are zero-extended back are the value exactly where the bits above them are zero. -/
theorem setWidth_setWidth_eq_self_iff {k l : Nat} (x : BitVec (k + l)) :
    (x.setWidth k).setWidth (k + l) = x ↔ x.extractLsb' k l = 0 := by
  simp only [BitVec.eq_of_getLsbD_eq_iff, BitVec.getLsbD_extractLsb', BitVec.getLsbD_setWidth]
  constructor
  · intro h b hb
    specialize h (k + b) (by omega)
    grind
  · intro h b hb
    specialize h (b - k)
    grind

/-- Low bits are still there after they are zero-extended. -/
theorem setWidth_setWidth_setWidth {m k n : Nat} (h : k ≤ n) (x : BitVec m) :
    ((x.setWidth k).setWidth n).setWidth k = x.setWidth k := by
  rw [BitVec.setWidth_setWidth_of_le _ h, BitVec.setWidth_eq]

/-- An instruction is canonical exactly where its canonical form has changed nothing. -/
theorem wellFormed_iff (i : Instr) : i.WellFormed = true ↔ i = i.canonical := by
  cases i
  case add | sub | and | or | nor | sll | srl | mult | div | nop => simp [Instr.WellFormed, Instr.canonical]
  case beq | bne | j =>
    simp only [Instr.WellFormed, Instr.canonical, beq_iff_eq, Instr.beq.injEq, Instr.bne.injEq, Instr.j.injEq, true_and]
    exact (setWidth_setWidth_eq_self_iff _).symm.trans eq_comm
  case lw | lb | sw | addi => exact iff_of_true rfl rfl

theorem canonical_canonical (i : Instr) : i.canonical.canonical = i.canonical := by
  cases i
  case beq | bne | j => simp only [Instr.canonical, setWidth_setWidth_setWidth, Nat.reduceLeDiff]
  all_goals rfl

end Sys2Proof

namespace Sys2Proof.Machine

theorem branchTarget_setWidth (offset : Imm19) :
    branchTarget ((offset.setWidth 10).setWidth 19) = branchTarget offset :=
  setWidth_setWidth_setWidth (by decide) offset

theorem jumpTarget_setWidth (address : Addr27) :
    jumpTarget ((address.setWidth 10).setWidth 27) = jumpTarget address :=
  setWidth_setWidth_setWidth (by decide) address

/-- The unused fields reach no rule: an offset of a branch and the address of a jump only by their target (R90, R91). -/
theorem exec_canonical (i : Instr) (s : State) : exec i.canonical s = exec i s := by
  cases i
  case beq => simp only [exec, Instr.canonical, execBeq, branchTarget_setWidth]
  case bne => simp only [exec, Instr.canonical, execBne, branchTarget_setWidth]
  case j => simp only [exec, Instr.canonical, execJ, jumpTarget_setWidth]
  all_goals rfl

/-- Settles O6: the canonical form is its own canonical form, so it is well-formed. -/
theorem unusedFieldsNeverMatter : Obligations.UnusedFieldsNeverMatter := fun i s =>
  ⟨(wellFormed_iff _).mpr (canonical_canonical i).symm, (wellFormed_iff i).trans eq_comm, exec_canonical i s⟩

end Sys2Proof.Machine
end

/-! What spec/40_alu_register.md says of ADD, SUB, AND, OR and NOR: each completes, with the result of its operation on
the two sources (R110 to R115). -/

namespace Sys2Proof.Machine

/-- A three-register instruction whose fields are usable, whose sources are readable and for which `pc + 1` is an
address goes through all the events of R115, whatever its operation and its operands. -/
theorem threeRegister_of_ready {s : State} {rs rt rd : RegIdx} (hu : s.Usable [rs, rt, rd]) (hr : s.Readable [rs, rt])
    (hc : s.CanAdvance) (f : Word → Word → Word) :
    threeRegister rs rt rd s f =
      .next ((s.afterReads [rs, rt]).after rd (f (s.operand [] rs) (s.operand [rs] rt))) :=
  threeRegister_eq_next.mpr ⟨hu, hr, hc, rfl⟩

/-! ### The sum and the difference (R110, R111) -/

/-- Settles O11: the sum of two words is by definition the sum of their values, cut to 32 bits. -/
theorem addWritesSum : Obligations.AddWritesSum := by
  intro s rs rt rd shamt funct hu hr hc
  rw [← BitVec.add_def]
  exact threeRegister_of_ready hu hr hc (· + ·)

/-- The difference of two words is the integer difference of their values modulo `2^w`, a negative one too. -/
theorem ofInt_toNat_sub_toNat {w : Nat} (x y : BitVec w) : BitVec.ofInt w (x.toNat - y.toNat) = x - y := by
  calc BitVec.ofInt w (x.toNat - y.toNat)
    _ = BitVec.ofNat w x.toNat + -BitVec.ofNat w y.toNat := by
      rw [Int.sub_eq_add_neg, BitVec.ofInt_add, BitVec.ofInt_natCast, BitVec.neg_ofNat_eq_ofInt_neg]
    _ = x - y := by
      rw [BitVec.ofNat_toNat, BitVec.ofNat_toNat, BitVec.setWidth_eq, BitVec.setWidth_eq, BitVec.sub_eq_add_neg]

/-- Settles O12: the difference of two words is the integer difference modulo `2^32`. -/
theorem subWritesDifference : Obligations.SubWritesDifference := by
  intro s rs rt rd shamt funct hu hr hc
  rw [ofInt_toNat_sub_toNat]
  exact threeRegister_of_ready hu hr hc (· - ·)

/-! ### The bitwise operations (R112 to R114) -/

/-- A bit of NOR's result, inside the word. -/
theorem getLsbD_nor {w k : Nat} (hk : k < w) (x y : BitVec w) :
    (~~~(x ||| y)).getLsbD k = !(x.getLsbD k || y.getLsbD k) := by
  simp [hk]

/-- Settles O13: the value each instruction writes is the word operation, read bit by bit. -/
theorem logicWritesBitwise : Obligations.LogicWritesBitwise := by
  intro s rs rt rd shamt funct hu hr hc
  have hnext := threeRegister_of_ready hu hr hc
  refine ⟨⟨_, hnext (· &&& ·), fun k _ => ?_⟩, ⟨_, hnext (· ||| ·), fun k _ => ?_⟩,
    ⟨_, hnext fun a b => ~~~(a ||| b), fun k hk => ?_⟩⟩
  · exact BitVec.getLsbD_and
  · exact BitVec.getLsbD_or
  · exact getLsbD_nor hk _ _

end Sys2Proof.Machine

/-! What spec/41_shifts.md says of SLL and SRL: each completes, with the source times or divided by a power of two (R120,
R121). -/

namespace Sys2Proof.Machine

/-- An instruction that computes its result from its sources alone goes through all its events and writes that result,
where its fields are usable, its sources are readable and `pc + 1` is an address. -/
theorem withOperands_finish_of_ready {s : State} {fields read : List RegIdx} (hu : s.Usable fields)
    (hr : s.Readable read) (hc : s.CanAdvance) (rd : RegIdx) (v : Word) :
    withOperands s fields read (fun u => u.finish rd v) = .next ((s.afterReads read).after rd v) := by
  rw [withOperands_of_ready hu hr]
  exact State.finish_of_room ((State.canAdvance_afterReads s read).mpr hc) rd v

/-- A left shift multiplies by a power of two, modulo `2^w`. -/
theorem shiftLeft_eq_ofNat_mul {w : Nat} (x : BitVec w) (n : Nat) : x <<< n = BitVec.ofNat w (x.toNat * 2 ^ n) := by
  apply BitVec.eq_of_toNat_eq
  rw [BitVec.toNat_shiftLeft, BitVec.toNat_ofNat, Nat.shiftLeft_eq]

/-- A logical right shift divides by a power of two and drops the fraction; the quotient is always a word. -/
theorem ushiftRight_eq_ofNat_div {w : Nat} (x : BitVec w) (n : Nat) : x >>> n = BitVec.ofNat w (x.toNat / 2 ^ n) := by
  rw [← Nat.shiftRight_eq_div_pow, ← BitVec.toNat_ushiftRight, BitVec.ofNat_toNat, BitVec.setWidth_eq]

/-- Settles O14: the word each shift writes is the product or the quotient, and RS is in no list it checks. -/
theorem shiftsWriteProductAndQuotient : Obligations.ShiftsWriteProductAndQuotient := by
  intro s rs rt rd shamt funct hu hr hc
  rw [← shiftLeft_eq_ofNat_mul, ← ushiftRight_eq_ofNat_div]
  exact ⟨withOperands_finish_of_ready hu hr hc rd _, withOperands_finish_of_ready hu hr hc rd _⟩

end Sys2Proof.Machine

/-! What spec/42_multiply_divide.md says of MULT and DIV: the low product (R130), the quotient on the agreement domain and
outside it (R131, R132), division by zero (R133), and how many free values an instruction draws. -/

namespace Sys2Proof.Machine

/-! ### The free values drawn (R27, R133) -/

/-- The instruction is a DIV whose divisor reads as 0 (R133). -/
def State.DividesByZero (s : State) (i : Instr) : Prop :=
  ∃ rs rt rd shamt funct, i = .div rs rt rd shamt funct ∧ s.operand [rs] rt = 0

@[simp] theorem State.dividesByZero_div {s : State} {rs rt rd : RegIdx} {shamt : Shamt} {funct : Funct} :
    s.DividesByZero (.div rs rt rd shamt funct) ↔ s.operand [rs] rt = 0 := by
  constructor
  · rintro ⟨_, _, _, _, _, hi, hz⟩
    cases hi
    exact hz
  · exact fun hz => ⟨_, _, _, _, _, rfl, hz⟩

theorem State.not_dividesByZero {s : State} {i : Instr} (hi : ∀ rs rt rd shamt funct, i ≠ .div rs rt rd shamt funct) :
    ¬s.DividesByZero i :=
  fun ⟨_, _, _, _, _, he, _⟩ => hi _ _ _ _ _ he

/-- A quotient that is found draws one value for a zero divisor and none for any other. -/
theorem State.quotient_draws {s : State} {a b : Word} {q : Word × State} (h : s.quotient a b = .ok q) :
    (b = 0 ∧ s.params.divZero = .anyValue ∧ q.2.draws = s.draws + 1) ∨ (b ≠ 0 ∧ q.2.draws = s.draws) := by
  obtain ⟨v, u⟩ := q
  obtain ⟨hb, hz, -, rfl⟩ | ⟨hb, -, -, -, rfl⟩ | ⟨hb, -, -, -, rfl⟩ := State.quotient_eq_ok h
  · exact .inl ⟨hb, hz, rfl⟩
  · exact .inr ⟨hb, rfl⟩
  · exact .inr ⟨hb, rfl⟩

/-- An answer computed from another is that other's answer, computed with. -/
theorem except_map_eq_ok {α β : Type} {r : Except Fault α} {f : α → β} {b : β} :
    r.map f = .ok b ↔ ∃ a, r = .ok a ∧ f a = b := by
  cases r <;> simp [Except.map]

/-- No effect but DIV's draws a value. -/
theorem effect_draws_of_ne_div {i : Instr} {x : Word × Word} {u : State} {e : Effect}
    (hi : ∀ rs rt rd shamt funct, i ≠ .div rs rt rd shamt funct) (h : effect i x u = .ok e) : e.draws = u.draws := by
  cases i
  case div => exact absurd rfl (hi _ _ _ _ _)
  case lw | lb | sw =>
    obtain ⟨_, -, rfl⟩ := except_map_eq_ok.mp h
    rfl
  all_goals
    cases h
    rfl

/-- Every free value an instruction that goes on has drawn: those of its reads, and one more where it is a division by
zero, which goes on under `DIV_ZERO = any value` alone. -/
theorem exec_draws {i : Instr} {s t : State} (h : exec i s = .next t) :
    (s.DividesByZero i ∧ s.params.divZero = .anyValue ∧ t.draws = s.draws + s.drawsFor (sources i) + 1) ∨
      (¬s.DividesByZero i ∧ t.draws = s.draws + s.drawsFor (sources i)) := by
  by_cases hi : ∀ rs rt rd shamt funct, i ≠ .div rs rt rd shamt funct
  · obtain ⟨-, -, e, he, -, rfl⟩ := exec_eq_next.mp h
    refine .inr ⟨State.not_dividesByZero hi, ?_⟩
    rw [State.setPc_draws, State.commit_draws, effect_draws_of_ne_div hi he, State.afterReads_draws]
  · push Not at hi
    obtain ⟨rs, rt, rd, shamt, funct, rfl⟩ := hi
    obtain ⟨-, -, q, hq, -, rfl⟩ := execDiv_eq_next.mp h
    rw [State.dividesByZero_div]
    exact State.quotient_draws hq

/-- Settles O48: the draws of the reads, and DIV's own, are all that `exec_draws` counts. -/
theorem freeValuesDrawnExactly : Obligations.FreeValuesDrawnExactly := by
  intro i s t h
  have hreads := fun hp => State.drawsFor_of_ne_anyValue (s := s) hp (sources i)
  obtain ⟨hz, hp, hd⟩ | ⟨hz, hd⟩ := exec_draws h
  · exact ⟨fun _ => ⟨hp, hd⟩, fun hn => absurd hz hn, hreads⟩
  · exact ⟨fun h0 => absurd h0 hz, fun _ => hd, hreads⟩

/-! ### The product (R130) -/

/-- The low bits of the product of two words read as signed are those of the words' product. -/
theorem ofInt_toInt_mul_toInt {w : Nat} (x y : BitVec w) : BitVec.ofInt w (x.toInt * y.toInt) = x * y := by
  rw [BitVec.ofInt_mul, BitVec.ofInt_toInt, BitVec.ofInt_toInt]

/-- The low bits of the product of two words read as unsigned are those of the words' product. -/
theorem ofNat_toNat_mul_toNat {w : Nat} (x y : BitVec w) : BitVec.ofNat w (x.toNat * y.toNat) = x * y := by
  rw [BitVec.ofNat_mul, BitVec.ofNat_toNat, BitVec.ofNat_toNat, BitVec.setWidth_eq, BitVec.setWidth_eq]

/-- Settles O15: both readings of the operands have the product of the words as their low product. -/
theorem multWritesLowProduct : Obligations.MultWritesLowProduct := by
  intro s rs rt rd shamt funct hu hr hc
  exact ⟨_, threeRegister_of_ready hu hr hc (· * ·), (ofNat_toNat_mul_toNat _ _).symm, (ofInt_toInt_mul_toInt _ _).symm⟩

/-! ### The quotient (R131 to R133) -/

/-- On the agreement domain the quotient is that of the words (R131). -/
theorem State.quotient_of_lt {a b : Word} (hb : b ≠ 0) (ha31 : a.toNat < 2 ^ 31) (hb31 : b.toNat < 2 ^ 31) (s : State) :
    s.quotient a b = .ok (a / b, s) := by
  unfold State.quotient
  rw [if_neg hb, if_pos ⟨ha31, hb31⟩]

/-- Outside the agreement domain the quotient is `DIV_FN`'s, where that is supplied (R132). -/
theorem State.quotient_of_supplied {s : State} {a b : Word} (hb : b ≠ 0)
    (hab : ¬(a.toNat < 2 ^ 31 ∧ b.toNat < 2 ^ 31)) (hf : s.params.divFn = .supplied) :
    s.quotient a b = .ok (Config.divFn a b, s) := by
  unfold State.quotient
  rw [if_neg hb, if_neg hab, hf]

/-- Under `DIV_ZERO = any value` the quotient by zero is the next free value (R133). -/
theorem State.quotient_of_anyValue {s : State} {b : Word} (hb : b = 0) (hz : s.params.divZero = .anyValue) (a : Word) :
    s.quotient a b = .ok s.draw := by
  unfold State.quotient
  rw [if_pos hb, hz]

/-- Two words below half their range have the same quotient read as unsigned and, divided toward zero, as signed. -/
theorem udiv_eq_ofInt_tdiv {w : Nat} {x y : BitVec w} (hx : 2 * x.toNat < 2 ^ w) (hy : 2 * y.toNat < 2 ^ w) :
    x / y = BitVec.ofInt w (x.toInt.tdiv y.toInt) := by
  rw [BitVec.toInt_eq_toNat_of_lt hx, BitVec.toInt_eq_toNat_of_lt hy, ← Int.ofNat_tdiv, BitVec.ofInt_natCast,
    BitVec.udiv_def]

section ReadyDivision

variable {s : State} {rs rt rd : RegIdx} {shamt : Shamt} {funct : Funct} (hu : s.Usable [rs, rt, rd])
  (hr : s.Readable [rs, rt])
include hu hr

/-- A DIV whose fields are usable and whose sources are readable writes the quotient that is found, where `pc + 1` is an
address. -/
theorem exec_div_of_quotient_eq_ok (hc : s.CanAdvance) {v : Word} {u : State}
    (hq : (s.afterReads [rs, rt]).quotient (s.operand [] rs) (s.operand [rs] rt) = .ok (v, u)) :
    exec (.div rs rt rd shamt funct) s = .next (u.after rd v) := by
  refine execDiv_eq_next.mpr ⟨hu, hr, (v, u), hq, ?_, rfl⟩
  rw [(State.quotient_state hq).1]
  exact hc

/-- Such a DIV is the fault of its quotient where there is none, whatever `pc`. -/
theorem exec_div_of_quotient_eq_error {f : Fault}
    (hq : (s.afterReads [rs, rt]).quotient (s.operand [] rs) (s.operand [rs] rt) = .error f) :
    exec (.div rs rt rd shamt funct) s = .fault f :=
  exec_eq_fault.mpr (.inr (.inr ⟨hu, hr, .inl (except_map_eq_error.mpr hq)⟩))

end ReadyDivision

/-- Settles O16: on the agreement domain the words' quotient is what both readings of the operands give. -/
theorem divWritesQuotientOnAgreementDomain : Obligations.DivWritesQuotientOnAgreementDomain := by
  intro s rs rt rd shamt funct hu hr hc hb ha31 hb31
  exact ⟨_, exec_div_of_quotient_eq_ok hu hr hc (State.quotient_of_lt hb ha31 hb31 _), BitVec.udiv_def,
    udiv_eq_ofInt_tdiv (by omega) (by omega)⟩

/-- Settles O17: the two settings of `DIV_FN` are the two outcomes of the quotient outside the agreement domain. -/
theorem divOutsideAgreementDomain : Obligations.DivOutsideAgreementDomain := by
  intro s rs rt rd shamt funct hu hr hb hab
  refine ⟨fun hf hc => ?_, fun hf => ?_⟩
  · exact exec_div_of_quotient_eq_ok hu hr hc (State.quotient_of_supplied hb hab hf)
  · exact exec_div_of_quotient_eq_error hu hr (State.quotient_eq_error.mpr (.inr ⟨hb, hab, hf, rfl⟩))

/-- Settles O18: the two settings of `DIV_ZERO` are the two outcomes of a quotient by zero, and the value drawn is the
next one in the state in which the sources have been read. -/
theorem divByZeroFollowsPolicy : Obligations.DivByZeroFollowsPolicy := by
  intro s rs rt rd shamt funct hu hr hb
  refine ⟨fun hz => ?_, fun hz hc => ?_⟩
  · exact exec_div_of_quotient_eq_error hu hr (State.quotient_eq_error.mpr (.inl ⟨hb, hz, rfl⟩))
  · exact exec_div_of_quotient_eq_ok hu hr hc
      (State.quotient_of_anyValue (s := s.afterReads [rs, rt]) hb hz _)

end Sys2Proof.Machine

/-! What spec/43_immediate.md says of ADDI: it completes, with the sum of its source and the widened immediate (R140). -/

namespace Sys2Proof.Machine

/-- Adding a value widened with zeros adds its unsigned value, modulo `2^32`. -/
theorem add_widen_zero {n : Nat} (x : Word) (v : BitVec n) :
    x + widen .zero v = BitVec.ofNat 32 (x.toNat + v.toNat) := by
  calc x + widen .zero v
    _ = BitVec.ofNat 32 x.toNat + BitVec.ofNat 32 v.toNat := by
      rw [BitVec.ofNat_toNat, BitVec.ofNat_toNat, BitVec.setWidth_eq, widen]
    _ = BitVec.ofNat 32 (x.toNat + v.toNat) := (BitVec.ofNat_add ..).symm

/-- Adding a value widened with its sign adds its two's complement value, modulo `2^32`. -/
theorem add_widen_sign {n : Nat} (x : Word) (v : BitVec n) :
    x + widen .sign v = BitVec.ofInt 32 (x.toNat + v.toInt) := by
  calc x + widen .sign v
    _ = BitVec.ofNat 32 x.toNat + BitVec.ofInt 32 v.toInt := by
      rw [BitVec.ofNat_toNat, BitVec.setWidth_eq, widen, BitVec.signExtend]
    _ = BitVec.ofInt 32 (x.toNat + v.toInt) := by
      rw [BitVec.ofInt_add, BitVec.ofInt_natCast]

/-- Settles O19: ADDI writes the source plus the widened immediate, and the setting of `IMM_EXT` decides which value of
the immediate that adds. -/
theorem addiWritesSum : Obligations.AddiWritesSum := by
  intro s rs rt imm hu hr hc
  have hnext : exec (.addi rs rt imm) s =
      .next ((s.afterReads [rs]).after rt (s.operand [] rs + widen s.params.immExt imm)) :=
    withOperands_finish_of_ready hu hr hc rt _
  refine ⟨fun hz => ?_, fun hs => ?_⟩
  · rw [hnext, hz, add_widen_zero]
  · rw [hnext, hs, add_widen_sign]

end Sys2Proof.Machine

/-! What spec/44_branches.md says of BEQ and BNE: a taken branch goes to the absolute target in `instr[9:0]`, one that is
not taken to `pc + 1`, and neither changes anything else (R150, R151). -/

namespace Sys2Proof.Machine

/-- The comparison holds exactly where the two operands are the same word. -/
theorem State.regsEqual_eq_true_iff {s : State} {rs rt : RegIdx} :
    s.regsEqual rs rt = true ↔ s.operand [] rs = s.operand [rs] rt :=
  beq_iff_eq

/-- The comparison fails exactly where the two operands differ in some bit. -/
theorem State.regsEqual_eq_false_iff {s : State} {rs rt : RegIdx} :
    s.regsEqual rs rt = false ↔ s.operand [] rs ≠ s.operand [rs] rt :=
  beq_eq_false_iff_ne

/-- The target is the low 10 bits of the offset field, as a field of the word (R90). -/
theorem branchTarget_eq_extractLsb' (offset : Imm19) : branchTarget offset = offset.extractLsb' 0 10 :=
  BitVec.setWidth_eq_extractLsb' (by decide)

section ReadyBranch

variable {s : State} {fields read : List RegIdx} (hu : s.Usable fields) (hr : s.Readable read) {taken : Bool}
include hu hr

/-- A conditional branch whose operands pass and whose condition holds sets `pc` to the target, whether or not `pc + 1`
is an address. -/
theorem withOperands_branchIf_of_taken (ht : taken = true) (offset : Imm19) :
    withOperands s fields read (fun u => u.branchIf taken (branchTarget offset)) =
      .next ((s.afterReads read).setPc (offset.extractLsb' 0 10)) := by
  rw [← branchTarget_eq_extractLsb', withOperands_eq_next]
  exact ⟨hu, hr, State.branchIf_eq_next.mpr (.inl ⟨ht, rfl⟩)⟩

/-- One whose condition fails goes on at `pc + 1`, where that is an address, whatever its target. -/
theorem withOperands_branchIf_of_not_taken (hc : s.CanAdvance) (ht : taken = false) (p : PcAddr) :
    withOperands s fields read (fun u => u.branchIf taken p) = .next ((s.afterReads read).setPc (s.pc + 1)) :=
  withOperands_eq_next.mpr ⟨hu, hr, State.branchIf_eq_next.mpr (.inr ⟨ht, hc, rfl⟩)⟩

end ReadyBranch

/-- Settles O21: BEQ is taken where the comparison holds, BNE where it fails. -/
theorem takenBranchesGoToTarget : Obligations.TakenBranchesGoToTarget := by
  refine fun s rs rt offset hu hr => ⟨fun heq => ?_, fun hne => ?_⟩
  · exact withOperands_branchIf_of_taken hu hr (State.regsEqual_eq_true_iff.mpr heq) offset
  · have htaken : (!s.regsEqual rs rt) = true := by rw [State.regsEqual_eq_false_iff.mpr hne, Bool.not_false]
    exact withOperands_branchIf_of_taken hu hr htaken offset

/-- Settles O22: BEQ is not taken where the comparison fails, BNE where it holds. -/
theorem untakenBranchesAdvance : Obligations.UntakenBranchesAdvance := by
  refine fun s rs rt offset hu hr hc => ⟨fun hne => ?_, fun heq => ?_⟩
  · exact withOperands_branchIf_of_not_taken hu hr hc (State.regsEqual_eq_false_iff.mpr hne) _
  · have huntaken : (!s.regsEqual rs rt) = false := by rw [State.regsEqual_eq_true_iff.mpr heq, Bool.not_true]
    exact withOperands_branchIf_of_not_taken hu hr hc huntaken _

end Sys2Proof.Machine

/-! What spec/45_load_store.md says of LW, LB and SW: the effective address (R160), and that each completes, with the
bytes at the place of its access (R161 to R164). -/

namespace Sys2Proof.Machine

/-! ### The effective address (R160) -/

/-- A word cut from an integer has the integer's residue as its value, a negative one's too. -/
theorem natCast_toNat_ofInt (w : Nat) (x : Int) : ((BitVec.ofInt w x).toNat : Int) = x % 2 ^ w := by
  have hw : (0 : Int) < 2 ^ w := by positivity
  rw [BitVec.toNat_ofInt, Nat.cast_pow, Nat.cast_ofNat, Int.toNat_of_nonneg (Int.emod_nonneg x hw.ne')]

/-- Settles O29: the setting of `IMM_EXT` decides which value of the offset is added to the base. -/
theorem effectiveAddressIsBasePlusOffset : Obligations.EffectiveAddressIsBasePlusOffset := by
  intro s rs offset
  refine ⟨fun hz => ?_, fun hs => ?_⟩
  · rw [State.effAddr, State.ext19, hz, add_widen_zero, BitVec.toNat_ofNat]
  · rw [State.effAddr, State.ext19, hs, add_widen_sign, natCast_toNat_ofInt]

/-! ### Stores (R163, R164) -/

/-- Settles O32: SW goes on with the word stored at the place of its access, and each of the four bytes there is a byte
of that word. -/
theorem storeWordWritesFourBytes : Obligations.StoreWordWritesFourBytes := by
  intro s rs rt offset a hu hr hc ha h4
  have hbyte : ∀ k < 4, cellRead (s.dmem.setWord a (s.operand [rs] rt)) (a + k) =
      some ((s.operand [rs] rt).extractLsb' (24 - 8 * k) 8) :=
    fun _ hk => Memory.read_setWord_byte s.dmem a _ hk
  exact ⟨_, execSw_eq_next.mpr ⟨hu, hr, hc, a, ha, h4, rfl⟩, rfl, hbyte 0 (by decide), hbyte 1 (by decide),
    hbyte 2 (by decide), hbyte 3 (by decide), fun _ hb => Memory.read_setWord_outside s.dmem _ hb⟩

/-! ### Loads (R161, R162) -/

/-- Settles O30: the four listed bytes are the word that is loaded. -/
theorem loadWordWritesFourBytes : Obligations.LoadWordWritesFourBytes := by
  intro s rs rt offset a b0 b1 b2 b3 hu hr hc ha h4 h0 h1 h2 h3
  have hword : s.dmem.wordAt a = .ok (b0 ++ b1 ++ b2 ++ b3) :=
    Memory.wordAt_eq_ok.mpr ⟨b0, b1, b2, b3, h0, h1, h2, h3, rfl⟩
  exact execLw_eq_next.mpr ⟨hu, hr, _, State.loadWord_eq_ok.mpr ⟨a, ha, h4, hword⟩, hc, rfl⟩

/-- Widening with zeros keeps the unsigned value (R13). -/
theorem widen_zero {n : Nat} (v : BitVec n) : widen .zero v = BitVec.ofNat 32 v.toNat :=
  (BitVec.ofNat_toNat 32 v).symm

/-- Widening with the sign keeps the two's complement value (R13). -/
theorem widen_sign {n : Nat} (v : BitVec n) : widen .sign v = BitVec.ofInt 32 v.toInt := rfl

/-- Settles O31: LB writes the listed byte widened, and the setting of `LB_EXT` decides which value of it that keeps. -/
theorem loadByteWritesWidenedByte : Obligations.LoadByteWritesWidenedByte := by
  intro s rs rt offset a b hu hr hc ha hb
  have hnext : exec (.lb rs rt offset) s = .next ((s.afterReads [rs]).after rt (widen s.params.lbExt b)) :=
    execLb_eq_next.mpr ⟨hu, hr, b, State.loadByte_eq_ok.mpr ⟨a, ha, hb⟩, hc, rfl⟩
  refine ⟨fun hz => ?_, fun hs => ?_⟩
  · rw [hnext, hz, widen_zero]
  · rw [hnext, hs, widen_sign]

end Sys2Proof.Machine

/-! What spec/46_jump.md says of J: it goes to the absolute target in `instr[9:0]`, and no state makes it fault (R180). -/

namespace Sys2Proof.Machine

/-- The target is the low 10 bits of the address field, as a field of the word (R91). -/
theorem jumpTarget_eq_extractLsb' (address : Addr27) : jumpTarget address = address.extractLsb' 0 10 :=
  BitVec.setWidth_eq_extractLsb' (by decide)

/-- J reads no register and runs no check: all it does is set `pc` to its target. -/
theorem exec_j (address : Addr27) (s : State) : exec (.j address) s = .next (s.setPc (jumpTarget address)) := rfl

/-- Settles O23: J is one write of `pc`, and its target is the low bits of the address field. -/
theorem jumpGoesToTarget : Obligations.JumpGoesToTarget := by
  intro s address
  rw [exec_j, jumpTarget_eq_extractLsb', State.setPc]

end Sys2Proof.Machine

/-! What spec/47_nop.md says of NOP: it advances `pc` and does nothing else (R185). -/

namespace Sys2Proof.Machine

/-- NOP reads no register and computes nothing: all it does is advance. -/
theorem exec_nop (low : Addr27) (s : State) : exec (.nop low) s = s.advance := rfl

/-- Settles O24: where there is room, advancing is one write of `pc`. -/
theorem nopOnlyAdvances : Obligations.NopOnlyAdvances := by
  intro s low hc
  rw [exec_nop, State.advance_of_room hc, State.setPc]

end Sys2Proof.Machine

/-! What spec/60_exceptions.md says of the model-level faults: each is reported exactly where its rule says (R192 to
R200, R212), in the order of R201, and no instruction is ever refused (R204). -/

namespace Sys2Proof.Machine

/-! ### What an effect reports (R196 to R199, R212) -/

/-- The faults an instruction computes once its fields are usable and its sources readable, in the terms of the claims:
those of an access by LW, SW or LB, and those of DIV. -/
inductive State.Reports (s : State) (i : Instr) : Fault → Prop where
  | wordOutOfRange {rs rt : RegIdx} {offset : Imm19} (hi : i = .lw rs rt offset ∨ i = .sw rs rt offset)
      (hp : s.params.outOfRange = .fault) (hr : 2 ^ 21 < (s.effAddr rs offset).toNat + 4) :
      s.Reports i (.addressOutOfRange (s.effAddr rs offset))
  | byteOutOfRange {rs rt : RegIdx} {offset : Imm19} (hi : i = .lb rs rt offset)
      (hp : s.params.outOfRange = .fault) (hr : 2 ^ 21 < (s.effAddr rs offset).toNat + 1) :
      s.Reports i (.addressOutOfRange (s.effAddr rs offset))
  | misaligned {rs rt : RegIdx} {offset : Imm19} {a : Nat} (hi : i = .lw rs rt offset ∨ i = .sw rs rt offset)
      (ha : s.Places (s.effAddr rs offset) 4 a) (h4 : a % 4 ≠ 0) : s.Reports i (.misalignedAccess (BitVec.ofNat 32 a))
  | wordUndefined {rs rt : RegIdx} {offset : Imm19} {a k : Nat} (hi : i = .lw rs rt offset)
      (ha : s.Places (s.effAddr rs offset) 4 a) (h4 : a % 4 = 0) (hk : k < 4) (hn : cellRead s.dmem (a + k) = none)
      (hlow : ∀ j < k, cellRead s.dmem (a + j) ≠ none) : s.Reports i (.undefinedMemory (BitVec.ofNat 32 (a + k)))
  | byteUndefined {rs rt : RegIdx} {offset : Imm19} {a : Nat} (hi : i = .lb rs rt offset)
      (ha : s.Places (s.effAddr rs offset) 1 a) (hn : cellRead s.dmem a = none) :
      s.Reports i (.undefinedMemory (BitVec.ofNat 32 a))
  | divideByZero {rs rt rd : RegIdx} {shamt : Shamt} {funct : Funct} (hi : i = .div rs rt rd shamt funct)
      (hp : s.params.divZero = .fault) (hb : s.operand [rs] rt = 0) : s.Reports i .divideByZero
  | divideUndecided {rs rt rd : RegIdx} {shamt : Shamt} {funct : Funct} (hi : i = .div rs rt rd shamt funct)
      (hp : s.params.divFn = .unsupplied) (hb : s.operand [rs] rt ≠ 0)
      (hm : (s.operand [] rs).msb = true ∨ (s.operand [rs] rt).msb = true) :
      s.Reports i (.divideUndecided (s.operand [] rs) (s.operand [rs] rt))

/-- Outside DIV's agreement domain bit 31 is set in an operand (R131). -/
theorem not_lt_and_lt_iff_msb {a b : Word} :
    ¬(a.toNat < 2 ^ 31 ∧ b.toNat < 2 ^ 31) ↔ a.msb = true ∨ b.msb = true := by
  simp only [BitVec.msb_eq_decide, decide_eq_true_eq]
  omega

/-- The place of a word access faults as a store there does. -/
theorem State.place_word_eq_error {s : State} {ea : Word} {f : Fault} :
    s.place ea .word = .error f ↔
      (s.params.outOfRange = .fault ∧ 2 ^ 21 < ea.toNat + 4 ∧ f = .addressOutOfRange ea) ∨
        ∃ a, s.Places ea 4 a ∧ a % 4 ≠ 0 ∧ f = .misalignedAccess (BitVec.ofNat 32 a) := by
  rw [← State.storeWord_eq_error (v := 0), State.storeWord_eq_map, except_map_eq_error]

/-- The effect of `i` in `s`, its operands read, is a fault. -/
def State.EffectFaults (s : State) (i : Instr) (f : Fault) : Prop :=
  effect i (s.operands i) (s.afterReads (sources i)) = .error f

section EffectFaults

variable {s : State} {rs rt rd : RegIdx} {offset : Imm19} {shamt : Shamt} {funct : Funct} {f : Fault}

theorem effectFaults_lw : s.EffectFaults (.lw rs rt offset) f ↔ s.loadWord (s.effAddr rs offset) = .error f :=
  except_map_eq_error

theorem effectFaults_lb : s.EffectFaults (.lb rs rt offset) f ↔ s.loadByte (s.effAddr rs offset) = .error f :=
  except_map_eq_error

theorem effectFaults_sw : s.EffectFaults (.sw rs rt offset) f ↔ s.place (s.effAddr rs offset) .word = .error f :=
  except_map_eq_error

theorem effectFaults_div : s.EffectFaults (.div rs rt rd shamt funct) f ↔
    (s.afterReads [rs, rt]).quotient (s.operand [] rs) (s.operand [rs] rt) = .error f :=
  except_map_eq_error

end EffectFaults

/-- Whatever fault an effect is, a rule of spec/60_exceptions.md reports it. -/
theorem State.EffectFaults.reports {s : State} {i : Instr} {f : Fault} (h : s.EffectFaults i f) : s.Reports i f := by
  cases i
  case lw rs rt offset =>
    obtain ⟨hp, hr, rfl⟩ | ⟨a, ha, h4, rfl⟩ | ⟨a, ha, h4, hw⟩ := State.loadWord_eq_error.mp (effectFaults_lw.mp h)
    · exact .wordOutOfRange (.inl rfl) hp hr
    · exact .misaligned (.inl rfl) ha h4
    · obtain ⟨k, hk, hn, hlow, rfl⟩ := Memory.wordAt_eq_error.mp hw
      exact .wordUndefined rfl ha h4 hk hn hlow
  case lb rs rt offset =>
    obtain ⟨hp, hr, rfl⟩ | ⟨a, ha, hn, rfl⟩ := State.loadByte_eq_error.mp (effectFaults_lb.mp h)
    · exact .byteOutOfRange rfl hp hr
    · exact .byteUndefined rfl ha hn
  case sw rs rt offset =>
    obtain ⟨hp, hr, rfl⟩ | ⟨a, ha, h4, rfl⟩ := State.place_word_eq_error.mp (effectFaults_sw.mp h)
    · exact .wordOutOfRange (.inr rfl) hp hr
    · exact .misaligned (.inr rfl) ha h4
  case div rs rt rd shamt funct =>
    obtain ⟨hb, hp, rfl⟩ | ⟨hb, hab, hp, rfl⟩ := State.quotient_eq_error.mp (effectFaults_div.mp h)
    · exact .divideByZero rfl hp hb
    · exact .divideUndecided rfl hp hb (not_lt_and_lt_iff_msb.mp hab)
  all_goals cases h

/-- Whatever a rule of spec/60_exceptions.md reports, the effect is that fault. -/
theorem State.Reports.effectFaults {s : State} {i : Instr} {f : Fault} (h : s.Reports i f) : s.EffectFaults i f := by
  cases h with
  | wordOutOfRange hi hp hr =>
    obtain rfl | rfl := hi
    · exact effectFaults_lw.mpr (State.loadWord_eq_error.mpr (.inl ⟨hp, hr, rfl⟩))
    · exact effectFaults_sw.mpr (State.place_word_eq_error.mpr (.inl ⟨hp, hr, rfl⟩))
  | byteOutOfRange hi hp hr =>
    subst hi
    exact effectFaults_lb.mpr (State.loadByte_eq_error.mpr (.inl ⟨hp, hr, rfl⟩))
  | misaligned hi ha h4 =>
    obtain rfl | rfl := hi
    · exact effectFaults_lw.mpr (State.loadWord_eq_error.mpr (.inr (.inl ⟨_, ha, h4, rfl⟩)))
    · exact effectFaults_sw.mpr (State.place_word_eq_error.mpr (.inr ⟨_, ha, h4, rfl⟩))
  | wordUndefined hi ha h4 hk hn hlow =>
    subst hi
    have hw := Memory.wordAt_eq_error.mpr ⟨_, hk, hn, hlow, rfl⟩
    exact effectFaults_lw.mpr (State.loadWord_eq_error.mpr (.inr (.inr ⟨_, ha, h4, hw⟩)))
  | byteUndefined hi ha hn =>
    subst hi
    exact effectFaults_lb.mpr (State.loadByte_eq_error.mpr (.inr ⟨_, ha, hn, rfl⟩))
  | divideByZero hi hp hb =>
    subst hi
    exact effectFaults_div.mpr (State.quotient_eq_error.mpr (.inl ⟨hb, hp, rfl⟩))
  | divideUndecided hi hp hb hm =>
    subst hi
    exact effectFaults_div.mpr (State.quotient_eq_error.mpr (.inr ⟨hb, not_lt_and_lt_iff_msb.mpr hm, hp, rfl⟩))

/-- Where an effect is a fault, and which. -/
theorem effect_eq_error {i : Instr} {s : State} {f : Fault} :
    effect i (s.operands i) (s.afterReads (sources i)) = .error f ↔ s.Reports i f :=
  ⟨State.EffectFaults.reports, State.Reports.effectFaults⟩

section EffectReports

variable {i : Instr} {s : State} {f : Fault}

/-- A fault that belongs neither to the checks before the effect nor to `pc` after it is the effect's own: what it takes
to be reported, besides usable fields and readable sources, is what it takes of the effect. -/
theorem exec_eq_fault_iff_of_reports_iff {P : Prop} (hreports : s.Reports i f ↔ P)
    (hreserved : ∀ r, f ≠ .reservedRegister r := by nofun) (hunwritten : ∀ r, f ≠ .unwrittenRegister r := by nofun)
    (hpc : f ≠ .pcOverflow := by nofun) :
    exec i s = .fault f ↔ s.Usable (usedFields i) ∧ s.Readable (sources i) ∧ P := by
  simp [exec_eq_fault, effect_eq_error, hreserved, hunwritten, hpc, hreports]

theorem reports_of_exec (h : exec i s = .fault f) (hreserved : ∀ r, f ≠ .reservedRegister r := by nofun)
    (hunwritten : ∀ r, f ≠ .unwrittenRegister r := by nofun) (hpc : f ≠ .pcOverflow := by nofun) : s.Reports i f :=
  have ⟨_, _, hreports⟩ := (exec_eq_fault_iff_of_reports_iff Iff.rfl hreserved hunwritten hpc).mp h
  hreports

end EffectReports

/-! ### Loads and stores (R196, R197, R212) -/

/-- Settles O36: of the faults reported, two are of an access out of range, a word's and a byte's. -/
theorem addressOutOfRangeExactly : Obligations.AddressOutOfRangeExactly := by
  intro i s addr
  refine exec_eq_fault_iff_of_reports_iff ⟨fun h => ?_, ?_⟩
  · cases h with
    | wordOutOfRange hi hp hr => exact ⟨hp, _, _, _, rfl, .inl ⟨hi, hr⟩⟩
    | byteOutOfRange hi hp hr => exact ⟨hp, _, _, _, rfl, .inr ⟨hi, hr⟩⟩
  · rintro ⟨hp, rs, rt, offset, rfl, ⟨hi, hr⟩ | ⟨hi, hr⟩⟩
    · exact .wordOutOfRange hi hp hr
    · exact .byteOutOfRange hi hp hr

/-- Settles O37: of the faults reported, one is of a misaligned access, and it is a word's. -/
theorem misalignedAccessExactly : Obligations.MisalignedAccessExactly := by
  intro i s addr
  refine exec_eq_fault_iff_of_reports_iff ⟨fun h => ?_, ?_⟩
  · cases h with
    | misaligned hi ha h4 => exact ⟨_, _, _, _, hi, ha, h4, rfl⟩
  · rintro ⟨rs, rt, offset, a, hi, ha, h4, rfl⟩
    exact .misaligned hi ha h4

/-- A byte access that takes place is inside the space. -/
theorem State.Places.lt_of_byte {s : State} {ea : Word} {a : Nat} (h : s.Places ea 1 a) : a < 2 ^ 21 := by
  rcases h with ⟨hin, ha⟩ | ⟨-, -, ha⟩ <;> omega

/-- A byte reported as undefined is a byte of the space. -/
theorem State.Reports.exists_undefined {s : State} {i : Instr} {addr : Word} (h : s.Reports i (.undefinedMemory addr)) :
    ∃ a < 2 ^ 21, cellRead s.dmem a = none := by
  cases h with
  | wordUndefined _ ha h4 hk hn =>
    have hlt : _ + 3 < 2 ^ 21 := ha.lt h4
    exact ⟨_, by omega, hn⟩
  | byteUndefined _ ha hn => exact ⟨_, ha.lt_of_byte, hn⟩

/-- Settles O38: of the faults reported, two are of a byte without a value, and that byte is one of the space. -/
theorem undefinedMemoryExactly : Obligations.UndefinedMemoryExactly := by
  refine ⟨fun i s addr => ?_, fun i s addr hall h => ?_⟩
  · refine exec_eq_fault_iff_of_reports_iff ⟨fun h => ?_, ?_⟩
    · cases h with
      | wordUndefined hi ha h4 hk hn hlow => exact ⟨_, _, _, _, _, .inl ⟨hi, ha, h4, hk⟩, hn, hlow, rfl⟩
      | byteUndefined hi ha hn => exact ⟨_, _, _, _, 0, .inr ⟨hi, ha, rfl⟩, hn, nofun, rfl⟩
    · rintro ⟨rs, rt, offset, a, k, ⟨hi, ha, h4, hk⟩ | ⟨hi, ha, rfl⟩, hn, hlow, rfl⟩
      · exact .wordUndefined hi ha h4 hk hn hlow
      · exact .byteUndefined hi ha hn
  · obtain ⟨a, ha, hn⟩ := (reports_of_exec h).exists_undefined
    exact hall a ha hn

/-! ### Division (R198, R199) -/

/-- Settles O42: of the faults reported, these two are DIV's. -/
theorem divideFaultsExactly : Obligations.DivideFaultsExactly := by
  refine fun i s => ⟨?_, fun a b => ?_⟩
  · refine exec_eq_fault_iff_of_reports_iff ⟨fun h => ?_, ?_⟩
    · cases h with
      | divideByZero hi hp hb => exact ⟨hp, _, _, _, _, _, hi, hb⟩
    · rintro ⟨hp, rs, rt, rd, shamt, funct, hi, hb⟩
      exact .divideByZero hi hp hb
  · refine exec_eq_fault_iff_of_reports_iff ⟨fun h => ?_, ?_⟩
    · cases h with
      | divideUndecided hi hp hb hm => exact ⟨hp, _, _, _, _, _, hi, rfl, rfl, hb, hm⟩
    · rintro ⟨hp, rs, rt, rd, shamt, funct, hi, rfl, rfl, hb, hm⟩
      exact .divideUndecided hi hp hb hm

/-! ### The checks around the effect (R194, R200) -/

/-- The check of the fields is the one that reports a reserved register. -/
theorem exec_eq_reservedRegister {i : Instr} {s : State} {r : RegIdx} :
    exec i s = .fault (.reservedRegister r) ↔
      s.params.flagPolicy = .reserved ∧ s.params.flagReg ∈ usedFields i ∧ r = s.params.flagReg := by
  have hreports : ¬s.Reports i (.reservedRegister r) := nofun
  simp [exec_eq_fault, effect_eq_error, hreports]

/-- Settles O39: the check of the fields raises this fault, and no effect does. -/
theorem reservedRegisterExactly : Obligations.ReservedRegisterExactly := by
  intro i s r
  rw [exec_eq_reservedRegister]
  constructor
  · rintro ⟨hp, hm, rfl⟩
    exact ⟨hp, rfl, hm⟩
  · rintro ⟨hp, rfl, hm⟩
    exact ⟨hp, hm, rfl⟩

/-- `PcOverflow` is an effect that is found and has nowhere to go. -/
theorem exec_eq_pcOverflow {i : Instr} {s : State} :
    exec i s = .fault .pcOverflow ↔ s.Usable (usedFields i) ∧ s.Readable (sources i) ∧
      (∃ e, effect i (s.operands i) (s.afterReads (sources i)) = .ok e) ∧ s.transfers i = false ∧
        s.params.pcWrap = .fault ∧ s.pc = 1023 := by
  have hreports : ¬s.Reports i .pcOverflow := nofun
  simp [exec_eq_fault, effect_eq_error, hreports, target_eq_none_iff]

/-- Settles O27: such an instruction has no target, and needs room to go on. -/
theorem pcOverflowOnlyAtUpperEnd : Obligations.PcOverflowOnlyAtUpperEnd := by
  refine fun i s => ⟨fun h => ?_, fun hw hpc ht t h => ?_⟩
  · obtain ⟨-, -, -, ht, hw, hpc⟩ := exec_eq_pcOverflow.mp h
    exact ⟨hw, hpc, ht⟩
  · obtain ⟨-, -, -, -, hroom, -⟩ := exec_eq_next.mp h
    exact hroom (target_eq_none_iff.mpr ht) hw hpc

/-! ### Availability (R204) -/

theorem proceed_eq_refused {α : Type} {x : Except Fault α} {k : α → Result} {r : Refusal} :
    proceed x k = .refused r ↔ ∃ v, x = .ok v ∧ k v = .refused r := by
  cases x <;> simp [proceed]

/-- The checks of the operands refuse nothing themselves. -/
theorem of_withOperands_eq_refused {s : State} {fields read : List RegIdx} {k : State → Result} {r : Refusal}
    (h : withOperands s fields read k = .refused r) : k (s.afterReads read) = .refused r := by
  unfold withOperands at h
  obtain ⟨-, hpass⟩ | ⟨-, -, hfault⟩ := guardRegs_cases s fields (guardReads s read (k (s.afterReads read)))
  · rw [hpass] at h
    obtain ⟨-, hpass'⟩ | ⟨_, -, hfault⟩ := guardReads_cases s read (k (s.afterReads read))
    · rwa [hpass'] at h
    · exact nomatch hfault.symm.trans h
  · exact nomatch hfault.symm.trans h

theorem State.advance_ne_refused (s : State) (r : Refusal) : s.advance ≠ .refused r := by
  unfold State.advance
  split <;> exact nofun

theorem State.leave_ne_refused (u : State) (p : Option PcAddr) (r : Refusal) : u.leave p ≠ .refused r := by
  cases p with
  | none => exact u.advance_ne_refused r
  | some a => exact nofun

/-- No phase of an instruction is a refusal. -/
theorem exec_ne_refused (i : Instr) (s : State) (r : Refusal) : exec i s ≠ .refused r := by
  intro h
  rw [exec_eq_phases] at h
  obtain ⟨e, -, hleave⟩ := proceed_eq_refused.mp (of_withOperands_eq_refused h)
  exact State.leave_ne_refused _ _ _ hleave

/-- A step refuses only where its instruction does. -/
theorem step_eq_refused {s : State} {r : Refusal} :
    step s = .refused r ↔ ∃ i, s.fetch = .ok i ∧ exec i s = .refused r := by
  unfold step
  cases s.fetch <;> simp

/-- Settles O43: a fetch can only fault, and no instruction refuses. -/
theorem everyInstructionAvailable : Obligations.EveryInstructionAvailable := by
  refine fun i s r => ⟨exec_ne_refused i s r, fun h => ?_⟩
  obtain ⟨j, -, hj⟩ := step_eq_refused.mp h
  exact exec_ne_refused j s r hj

/-! ### The fetch (R192, R193) -/

/-- A fault that no instruction raises is raised by a step exactly where the fetch raises it. -/
theorem step_eq_fault_iff_fetch {s : State} {f : Fault} (hf : ∀ i, exec i s ≠ .fault f) :
    step s = .fault f ↔ s.fetch = .error f := by
  simp [step_eq_fault, hf]

theorem exec_ne_illegalOpcode (i : Instr) (s : State) (x : Option Word) : exec i s ≠ .fault (.illegalOpcode x) :=
  fun h => nomatch reports_of_exec h

theorem exec_ne_nonCanonicalEncoding (i : Instr) (s : State) (w : Word) :
    exec i s ≠ .fault (.nonCanonicalEncoding w) :=
  fun h => nomatch reports_of_exec h

/-- Settles O9: no instruction raises the fault, and decoding does at the unassigned codes. -/
theorem illegalOpcodeExactly : Obligations.IllegalOpcodeExactly := by
  intro s x
  rw [step_eq_fault_iff_fetch fun i => exec_ne_illegalOpcode i s x, State.fetch_eq_error]
  constructor
  · rintro (⟨hnone, hx⟩ | ⟨w, e, hw, he, hx⟩)
    · cases hx
      exact .inl ⟨rfl, hnone⟩
    · obtain ⟨rfl, hcode⟩ | ⟨-, rfl, -⟩ := decodeWord_eq_error.mp he <;> cases hx
      exact .inr ⟨w, rfl, hw, hcode⟩
  · rintro (⟨rfl, hnone⟩ | ⟨w, rfl, hw, hcode⟩)
    · exact .inl ⟨hnone, rfl⟩
    · exact .inr ⟨w, _, hw, decodeWord_eq_error.mpr (.inl ⟨rfl, hcode⟩), rfl⟩

end Sys2Proof.Machine

namespace Sys2Proof

/-- A word of format R with a non-zero field that its instruction does not use, by its operation code (R193): SHAMT or
FUNCTION of the three-register instructions, RS or FUNCTION of the shifts. -/
def HasUnusedBits (w : Word) : Prop :=
  ((opcodeField w).toNat ∈ [0, 1, 2, 3, 4, 7, 8] ∧ (shamtField w ≠ 0 ∨ functField w ≠ 0)) ∨
    ((opcodeField w).toNat ∈ [5, 6] ∧ (rsField w ≠ 0 ∨ functField w ≠ 0))

/-- The strict decoder turns away exactly the instructions whose words have such a field. -/
theorem strictAccepts_eq_false_iff (i : Instr) : i.strictAccepts = false ↔ HasUnusedBits (encode i) := by
  unfold HasUnusedBits
  rw [opcodeField_encode]
  cases i
  case add | sub | and | or | nor | mult | div =>
    simp [Instr.strictAccepts, Instr.opcode, encode, shamtField_encodeR, functField_encodeR, or_iff_not_imp_left]
  case sll | srl =>
    simp [Instr.strictAccepts, Instr.opcode, encode, rsField_encodeR, functField_encodeR, or_iff_not_imp_left]
  case beq | bne | lw | lb | sw | j | addi | nop => simp [Instr.strictAccepts, Instr.opcode]

/-- A word that decodes to an instruction the strict decoder turns away has such a field; no unassigned code does. -/
theorem exists_decode_not_strictAccepts_iff {w : Word} :
    (∃ i, decode w = .ok i ∧ i.strictAccepts = false) ↔ HasUnusedBits w := by
  constructor
  · rintro ⟨i, hi, hs⟩
    rw [← decode_eq_ok.mp hi]
    exact (strictAccepts_eq_false_iff i).mp hs
  · intro h
    obtain ⟨i, hi⟩ | ⟨-, hlow, -⟩ := decode_cases w
    · rw [← decode_eq_ok.mp hi] at h
      exact ⟨i, hi, (strictAccepts_eq_false_iff i).mpr h⟩
    · simp only [HasUnusedBits, List.mem_cons, List.not_mem_nil, or_false] at h
      omega

end Sys2Proof

namespace Sys2Proof.Machine

/-- Settles O10: no instruction raises the fault, and decoding does where the strict decoder turns a word away. -/
theorem nonCanonicalExactlyWhenStrict : Obligations.NonCanonicalExactlyWhenStrict := by
  intro s w
  rw [step_eq_fault_iff_fetch fun i => exec_ne_nonCanonicalEncoding i s w, State.fetch_eq_error]
  change _ ↔ s.params.strictDecode = true ∧ s.instrWord s.pc = some w ∧ HasUnusedBits w
  rw [← exists_decode_not_strictAccepts_iff]
  constructor
  · rintro (⟨-, hf⟩ | ⟨w', e, hw, he, hf⟩)
    · cases hf
    · obtain ⟨rfl, -⟩ | ⟨hstrict, rfl, hi⟩ := decodeWord_eq_error.mp he <;> cases hf
      exact ⟨hstrict, hw, hi⟩
  · rintro ⟨hstrict, hw, hi⟩
    exact .inr ⟨w, _, hw, decodeWord_eq_error.mpr (.inr ⟨hstrict, rfl, hi⟩), rfl⟩

end Sys2Proof.Machine

/-! What spec/70_reset_and_hazards.md says of the end of a run: a J to itself leaves the state as it is (R228). -/

namespace Sys2Proof

/-- A word with J's operation code is a J, to either decoder (R83, R94). -/
theorem decodeWord_of_opcodeField_j {w : Word} (h : opcodeField w = 0b01110) (strict : Bool) :
    decodeWord strict w = .ok (.j (addressField w)) := by
  have hencode : encode (.j (addressField w)) = w := by
    conv_rhs => rw [← encodeJ_fields w, h]
    rfl
  exact decodeWord_eq_ok.mpr ⟨decode_eq_ok.mpr hencode, fun _ => rfl⟩

/-- A run from a state that a step leaves as it is stays there. -/
theorem run_of_step_eq_self {s : Machine.State} (h : Machine.step s = .next s) (n : Nat) : core.run n s = .next s := by
  have hcore : core.step s = .next s := h
  induction n with
  | zero => rfl
  | succ n ih => simpa only [Host.Core.run, hcore] using ih

end Sys2Proof

namespace Sys2Proof.Machine

/-- The target of the J in a word is the low 10 bits of the word (R91). -/
theorem jumpTarget_addressField (w : Word) : jumpTarget (addressField w) = w.extractLsb' 0 10 := by
  rw [jumpTarget_eq_extractLsb', addressField, BitVec.extractLsb'_extractLsb'_of_le (by decide)]

/-- A run that has completed by R228 stands at a word with J's operation code and its own address as the target. -/
theorem State.completed_selfJump_iff {s : State} (h : s.params.endOfRun = .selfJump) :
    s.completed = true ↔
      ∃ w, s.instrWord s.pc = some w ∧ opcodeField w = 0b01110 ∧ w.extractLsb' 0 10 = s.pc := by
  simp [State.completed, h, Option.any_eq_true]

/-- A step of a completed run sets `pc` to where it is. -/
theorem step_of_completed {s : State} (he : s.params.endOfRun = .selfJump) (hc : s.completed = true) :
    step s = .next s := by
  obtain ⟨w, hw, hop, hself⟩ := (State.completed_selfJump_iff he).mp hc
  have hfetch : s.fetch = .ok (.j (addressField w)) :=
    State.fetch_eq_ok.mpr ⟨w, hw, decodeWord_of_opcodeField_j hop _⟩
  rw [step_of_fetch hfetch, exec_j, jumpTarget_addressField, hself]
  rfl

/-- Settles O28: no step of a completed run changes the state, so no number of them does. -/
theorem completedRunStays : Obligations.CompletedRunStays :=
  fun _ n he hc => run_of_step_eq_self (step_of_completed he hc) n

end Sys2Proof.Machine
